-- ==== Sys2Proof/Word.lean ====
section
/-! DEFINITION. Word.lean: the widths of the block's data (00_scope.md R6, R7; 30_encoding.md R60). -/

namespace Sys2Proof

/-- An 8-bit unit: an input byte, a symbol code, one cell of the output buffer (R6). -/
abbrev Byte := BitVec 8

/-- One command word as the command port carries it (R60). -/
abbrev CmdWord := BitVec 10

/-- A symbol index: 5 input bits (R2, R6). -/
abbrev SymbolIndex := BitVec 5

end Sys2Proof
end

