-- ==== Sys2Proof/Syntax.lean ====
section
/-! DEFINITION. Syntax.lean: the commands of 30_encoding.md R61, one constructor per row of spec/opcode_table.json. -/

namespace Sys2Proof

/-- A command of the block. The DATA field of NOP, START and END is ignored (R63), so only BYTE carries an operand.
START's operand comes from the `cap_in` port, not from the word (R64), so it stands in the machine's state. -/
inductive Instr where
  /-- NOP (R100). -/
  | nop
  /-- START (R101): open a call with the capacity on `cap_in`. -/
  | start
  /-- BYTE d (R102): consume the input byte `d`. -/
  | byte (d : Byte)
  /-- END (R103): flush the partial symbol and close the call. -/
  | endCall
  deriving DecidableEq, Repr

/-- The mnemonic of R61. -/
def Instr.mnemonic : Instr → String
  | .nop => "NOP"
  | .start => "START"
  | .byte _ => "BYTE"
  | .endCall => "END"

end Sys2Proof
end

