-- ==== Sys2Proof/WellFormed.lean ====
section
/-! DEFINITION. WellFormed.lean: the checks a command and its port values pass. -/

namespace Sys2Proof

/-- Every command is well formed: BYTE's operand is an 8-bit value by its type and every value is legal (R62), and no
command word is illegal or reserved (R65). -/
def Instr.wf : Instr → Bool
  | .nop => true
  | .start => true
  | .byte _ => true
  | .endCall => true

/-- The parameter CAP_W is at least 1 (00_scope.md R5). -/
def capWidthOk (capW : Nat) : Bool := decide (1 ≤ capW)

/-- A value the `cap_in` port of width `capW` can carry (R5, R64): an unsigned `capW`-bit number. -/
def capInOk (capW capIn : Nat) : Bool := capWidthOk capW && decide (capIn < 2 ^ capW)

/-- A number an assembler accepts as BYTE's operand (R67): an 8-bit unsigned number. -/
def byteOperandOk (b : Nat) : Bool := decide (b < 2 ^ 8)

end Sys2Proof
end

