-- ==== Sys2Proof/Decode.lean ====
section
/-! DEFINITION. Decode.lean: command words to commands and back (30_encoding.md R60 to R69). -/

namespace Sys2Proof

/-- The OP field, bits [9:8] of the word (R60). -/
def opField (w : CmdWord) : BitVec 2 := w.extractLsb' 8 2

/-- The DATA field, bits [7:0] of the word (R60). -/
def dataField (w : CmdWord) : Byte := w.extractLsb' 0 8

/-- Decoding is by OP alone and total (R61, R65): each of the 1024 words selects exactly one command. -/
def decode (w : CmdWord) : Instr :=
  match (opField w).toNat with
  | 0 => .nop
  | 1 => .start
  | 2 => .byte (dataField w)
  | _ => .endCall

/-- Why a string of bits is no command word: it is not 10 bits (R60, R66). -/
inductive Reject where
  /-- A bit above bit 9 is set: every command is exactly one 10-bit word (R60). -/
  | wordWiderThanTenBits
  deriving DecidableEq, Repr

/-- Decode a number as a command word. Only a number that does not fit the 10-bit word is rejected. -/
def decodeNat (w : Nat) : Except Reject Instr :=
  if w < 2 ^ 10 then .ok (decode (BitVec.ofNat 10 w)) else .error .wordWiderThanTenBits

/-- The decoder on a row of spec/opcode_table.json: the `nbits` lowest bits of `w`, bit 0 first, all bits above zero. -/
def decodeTableWord (nbits w : Nat) : Option Instr := (decodeNat (w % 2 ^ nbits)).toOption

/-- The command word of OP `op` with DATA `d` (R60). -/
def commandWord (op : BitVec 2) (d : Byte) : CmdWord := op ++ d

/-- The word an assembler writes for a command (R61, R67): DATA is 0 where it is ignored. -/
def encode : Instr → CmdWord
  | .nop => commandWord 0b00#2 0#8
  | .start => commandWord 0b01#2 0#8
  | .byte d => commandWord 0b10#2 d
  | .endCall => commandWord 0b11#2 0#8

/-- One row of the opcode map (R69). -/
structure OpcodeRow where
  mnemonic : String
  mask : CmdWord
  pattern : CmdWord
  deriving DecidableEq, Repr

/-- The word belongs to the row. -/
def OpcodeRow.holds (r : OpcodeRow) (w : CmdWord) : Bool := w &&& r.mask == r.pattern

/-- The opcode map of R69, the rows of spec/opcode_table.json. -/
def opcodeMap : List OpcodeRow :=
  [ { mnemonic := "NOP", mask := 0x300#10, pattern := 0x000#10 },
    { mnemonic := "START", mask := 0x300#10, pattern := 0x100#10 },
    { mnemonic := "BYTE", mask := 0x300#10, pattern := 0x200#10 },
    { mnemonic := "END", mask := 0x300#10, pattern := 0x300#10 } ]

end Sys2Proof
end

