-- ==== Sys2Proof/Config.lean ====
section
/-! DEFINITION. Config.lean: what the spec leaves open for good. Both constants are free values: they have no body, so
no proof can use what they are (93_implementation_defined.md I5, I6; log entries 4 and 8). -/

namespace Sys2Proof

/-- What cell `a` of the memory behind OBUF holds at power-on, before the host or a call writes it: "any value"
(70_reset_and_hazards.md R171, 93 I5). -/
opaque Config.powerOnCell : Nat → Byte

/-- How the `n`th race between a host write and a symbol write ends: `true` when the host's value stands, `false`
when the symbol does (70_reset_and_hazards.md R176, 93 I6). -/
opaque Config.raceKeepsHost : Nat → Bool

end Sys2Proof
end

