-- ==== Sys2Proof/Machine/State.lean ====
section
/-! DEFINITION. Machine/State.lean: everything the spec gives the block, as plain data (10_state.md, 20_memory.md,
70_reset_and_hazards.md). The fields are listed with their rules and reset values in INVENTORY.md. -/

namespace Sys2Proof.Machine

/-- The register STATE (R21). Its 2-bit code is `CallState.code`. -/
inductive CallState where
  /-- IDLE: no call has been started since reset. -/
  | idle
  /-- BUSY: a call is open and accepts BYTE and END. -/
  | busy
  /-- DONE: the call ended through END with no error. -/
  | done
  /-- ERROR: the call ended with InvalidOutputLength. -/
  | error
  deriving DecidableEq, Repr

/-- What the world outside can do to the block (R60, R170, R172, R174, R176; log entry 2). -/
inductive HostInput where
  /-- A command word on the command port, with the value `cap_in` carries beside it (R60). -/
  | command (word : CmdWord) (capIn : Nat)
  /-- The reset input is asserted (R170). -/
  | reset
  /-- The host provides an output buffer of `cells` cells at the offsets 0 to `cells - 1` (R172 step 1, R173). -/
  | lend (cells : Nat)
  /-- The host writes the cell at offset `a` (R171, R176). -/
  | bufferWrite (a : Nat) (v : Byte)
  deriving DecidableEq, Repr

/-- Storage by address: pairs of an address and a byte, addresses strictly rising. An address with no entry has not
been written; it holds no known value (R171, log entry 4). -/
abbrev Memory := List Host.Cell

/-- The canonical form of a memory: its addresses strictly rise. -/
abbrev Memory.wf (m : Memory) : Prop := m.Pairwise (fun x y => x.1 < y.1)

/-- The machine's state. -/
structure State where
  /-- STATE (R21). -/
  call : CallState
  /-- `remain`, 3 bits (R22). -/
  remain : BitVec 3
  /-- `current`, 5 bits (R23). -/
  current : BitVec 5
  /-- `wptr` (R24), a natural number as R5 allows (log entry 1). -/
  wptr : Nat
  /-- `cap` (R25), a natural number as R5 allows (log entry 1). -/
  cap : Nat
  /-- OLEN, 1 bit (R26). -/
  olen : Bool
  /-- The value on the `cap_in` port (R60, R64; log entry 3). -/
  capIn : Nat
  /-- The cells of the memory behind OBUF, by offset from the buffer's start (R40, R41; log entry 4). -/
  obuf : Memory
  /-- How many cells the real buffer behind OBUF has, once the host has stated it (R172 step 1, R173; log entry 5). -/
  obufLen : Option Nat
  /-- What the write port carried in the last step: `obuf_addr` and `obuf_wdata` of each write, oldest first (R41;
  log entry 10). -/
  obufPort : List Host.Cell
  /-- What the host does next, oldest first (R60, R174; log entry 2). -/
  inputs : List HostInput
  /-- The cells the host has written in the open call and the block has not reached (R176, 93 I6; log entry 8). -/
  raced : List Nat
  /-- The symbols of the open call so far, the one for cell 0 first: the value that a host write races with (R176, 93 I6;
  log entry 8). -/
  symbols : List Byte
  /-- How many races have been settled: the argument of the next free choice (93 I6; log entry 8). -/
  draws : Nat
  deriving DecidableEq, Repr

/-- No fault exists: the spec's one exception, InvalidOutputLength, leaves the block running in STATE = ERROR (R150,
R151), and no command word traps (R65). So there is no constructor (log entry 15). -/
inductive Fault where
  deriving DecidableEq, Repr

/-- Why the model refuses a step. -/
inductive Refusal where
  /-- An instruction without a meaning. Raised by an arm of `exec` that has none (now no arm). Safe. -/
  | notModelled (mnemonic : String)
  /-- `remain` in 0, 6, 7 or `current >= 2^(5 - remain)`: "A model that is started in such a state has no defined
  step" (93 I4, 92 D17). Raised by every command. Safe: such a state is not reachable (R30). -/
  | illegalCarry
  /-- A capacity larger than the real buffer: "the configuration is not admitted" (R173, 93 I8). Raised by START when
  `cap_in` is larger than the buffer, by every command in a state that has it, and by a host input that would make
  it so. Safe. -/
  | capacityBeyondBuffer
  /-- Two busy instances have overlapping buffers (R51, 93 I3). Raised by the platform. Safe. -/
  | overlappingBuffers
  /-- The host moves a buffer that is borrowed for an open call (R171). Raised by the platform. Safe. -/
  | bufferMovedWhileBusy
  /-- An input names an instance the platform does not have. Raised by the platform. Safe. -/
  | noSuchEncoder
  deriving DecidableEq, Repr

/-- The block right after power-on reset (R20, R170), with the ports quiet and no buffer length stated (log entries 2,
3, 5, 8, 10). The model's own fields `raced`, `symbols` and `draws` start empty (log entry 8). -/
def State.reset : State where
  call := .idle
  remain := 5#3
  current := 0#5
  wptr := 0
  cap := 0
  olen := false
  capIn := 0
  obuf := []
  obufLen := none
  obufPort := []
  inputs := []
  raced := []
  symbols := []
  draws := 0

end Sys2Proof.Machine
end

