-- ==== Sys2Proof/Machine/Flags.lean ====
section
/-! DEFINITION. Machine/Flags.lean: the status views and the one flag, OLEN (10_state.md R21, R26 to R28;
60_exceptions.md R150). -/

namespace Sys2Proof.Machine

/-- The 2-bit code of STATE (R21). -/
def CallState.code : CallState → BitVec 2
  | .idle => 0#2
  | .busy => 1#2
  | .done => 2#2
  | .error => 3#2

/-- STATUS (R27): bits [1:0] are STATE, bit [2] is OLEN, bits [7:3] read as 0. A read has no side effect. The view
is of the states between commands: the value of a read during a command is left out (DESIGN CHOICE, log entry 18). -/
def State.status (s : State) : Byte := (0#5 ++ BitVec.ofBool s.olen) ++ s.call.code

/-- COUNT (R28): a read-only view of `wptr`. A read has no side effect. The view is of the states between commands: the
value of a read during a command, between the two writes of a BYTE above all, is left out (DESIGN CHOICE, log entry
18). -/
def State.count (s : State) : Nat := s.wptr

/-- The causes of an exception: there is exactly one (R150, R151). -/
inductive Cause where
  /-- InvalidOutputLength. -/
  | invalidOutputLength
  deriving DecidableEq, Repr

/-- The cause code (R150; 92 D22). -/
def Cause.code : Cause → Nat
  | .invalidOutputLength => 1

/-- The cause the status registers record (R150): OLEN = 1 says InvalidOutputLength. -/
def State.cause (s : State) : Option Cause := if s.olen then some .invalidOutputLength else none

/-- OLEN is set, by the error only (R26). -/
def setOlen (s : State) : State := { s with olen := true }

/-- OLEN is cleared, by START and by reset only (R26). -/
def clearOlen (s : State) : State := { s with olen := false }

end Sys2Proof.Machine
end

