-- ==== Sys2Proof/Machine/Operands.lean ====
section
/-! DEFINITION. Machine/Operands.lean: the combinational datapath (40_datapath.md R80 to R89). Values are computed
exactly, as natural numbers, and narrowed once at the end (R7, R88). -/

namespace Sys2Proof.Machine

/-- The MASK ROM (R80): entry `k` has exactly the low `k` bits set. -/
def maskRom : Vector Byte 9 :=
  #v[0x00#8, 0x01#8, 0x03#8, 0x07#8, 0x0F#8, 0x1F#8, 0x3F#8, 0x7F#8, 0xFF#8]

/-- `MASK[k]` (R80). -/
def mask (k : Fin 9) : Nat := (maskRom[k]).toNat

/-- The ALPHABET ROM (R81), index 0 to 31. -/
def alphabetRom : Vector Byte 32 :=
  #v[0x41#8, 0x42#8, 0x43#8, 0x44#8, 0x45#8, 0x46#8, 0x47#8, 0x48#8,
     0x49#8, 0x4A#8, 0x4B#8, 0x4C#8, 0x4D#8, 0x4E#8, 0x4F#8, 0x50#8,
     0x51#8, 0x52#8, 0x53#8, 0x54#8, 0x55#8, 0x56#8, 0x57#8, 0x58#8,
     0x59#8, 0x5A#8, 0x32#8, 0x33#8, 0x34#8, 0x35#8, 0x36#8, 0x37#8]

/-- `ALPHABET[i]` (R81): the symbol code of a 5-bit index. -/
def alphabet (i : SymbolIndex) : Byte := alphabetRom[i.toFin]

/-- The ROM index `r` of `MASK[r]`. -/
def maskIndexLow (r : BitVec 3) : Fin 9 := ⟨r.toNat, by omega⟩

/-- The ROM index `8 - r` of `MASK[inner]` (R83, R84). -/
def maskIndexHigh (r : BitVec 3) : Fin 9 := ⟨8 - r.toNat, by omega⟩

/-- The first symbol index of a byte (R82). -/
def idx1 (r : BitVec 3) (c : BitVec 5) (d : Byte) : SymbolIndex :=
  BitVec.ofNat 5 (((d.toNat &&& mask (maskIndexLow r)) <<< (5 - r.toNat)) ||| c.toNat)

/-- How many bits of the byte the first symbol leaves (R83). -/
def innerBits (r : BitVec 3) : Nat := 8 - r.toNat

/-- The extracted carry `t`, up to 7 bits: a combinational value, not the register `current` (R33, R84). -/
def extracted (r : BitVec 3) (d : Byte) : Nat := (d.toNat >>> r.toNat) &&& mask (maskIndexHigh r)

/-- A second symbol is available from the byte alone (R85). -/
def second (r : BitVec 3) : Bool := decide (5 ≤ innerBits r)

/-- The second symbol index (R85). -/
def idx2 (r : BitVec 3) (d : Byte) : SymbolIndex := BitVec.ofNat 5 (extracted r d &&& mask 5)

/-- `t'`: what is left of the byte after its symbols (R85). -/
def leftover (r : BitVec 3) (d : Byte) : Nat := if second r then extracted r d >>> 5 else extracted r d

/-- `inner'`: how many bits are left of the byte after its symbols (R85). -/
def leftoverBits (r : BitVec 3) : Nat := if second r then innerBits r - 5 else innerBits r

/-- The next `current` (R86). -/
def nextCurrent (r : BitVec 3) (d : Byte) : BitVec 5 := BitVec.ofNat 5 (leftover r d)

/-- The next `remain` (R86). -/
def nextRemain (r : BitVec 3) : BitVec 3 := BitVec.ofNat 3 (5 - leftoverBits r)

/-- The index of the tail symbol (R87). -/
def tailIndex (c : BitVec 5) : SymbolIndex := BitVec.ofNat 5 (c.toNat &&& mask 5)

/-- Carry bits are pending, so END writes a tail symbol (R103; 90_conflicts.md C1). -/
def tailPending (r : BitVec 3) : Bool := decide (r.toNat ≠ 5)

end Sys2Proof.Machine
end

