-- ==== Sys2Proof/Machine/Ops.lean ====
section
/-! DEFINITION. Machine/Ops.lean: the named operations on memory and registers (00_scope.md R8; 20_memory.md R41, R42;
40_datapath.md R90; 60_exceptions.md R150, R154; 70_reset_and_hazards.md R170). -/

namespace Sys2Proof.Machine

/-- The byte listed at an address, if one is. -/
def Memory.read : Memory → Nat → Option Byte
  | [], _ => none
  | (b, v) :: m, a => if b = a then some v else Memory.read m a

/-- Write one byte, keeping the addresses strictly rising. -/
def Memory.write : Memory → Nat → Byte → Memory
  | [], a, v => [(a, v)]
  | (b, w) :: m, a, v =>
    if a < b then (a, v) :: (b, w) :: m
    else if a = b then (a, v) :: m
    else (b, w) :: Memory.write m a v

/-- What the host reads from the cell at offset `a` between commands (R48). A cell nothing has written holds its
power-on value, which is free (R171, 93 I5). A read has no side effect (R46). -/
def State.hostRead (s : State) (a : Nat) : Byte := (s.obuf.read a).getD (Config.powerOnCell a)

/-- What a host read of cell `a` may return while the step from `before` to `after` is in progress: "the old or the
new value" (R48, 93 I6). Each cell is written at most once in a command, so these two are all, but for a cell the host
has also raced for. The spec gives a read and a host write each its race, and not the two together: the model has the
value before and the value that stands after, so the symbol is left out when the host's value stands (DESIGN CHOICE, log
entry 21). The relation is for OBUF cells only: what a STATUS or COUNT read returns during a command the spec leaves open, and the model has no value for it (log entry
18). -/
def State.mayReadDuring (before after : State) (a : Nat) (v : Byte) : Prop :=
  v = before.hostRead a ∨ v = after.hostRead a

/-- `MemWrite(OBUF, a, 1, v)` (R8, R41): the write port carries the write, and cell `a` becomes `v`. Where the host has
written the same cell in this call the two writers race, and a free choice says whose value stands (R176, 93 I6). -/
def obufWrite (a : Nat) (v : Byte) (s : State) : State :=
  if a ∈ s.raced then
    { s with
      obuf := if Config.raceKeepsHost s.draws then s.obuf else s.obuf.write a v
      obufPort := s.obufPort ++ [(a, v)]
      raced := s.raced.filter (fun b => b ≠ a)
      symbols := s.symbols ++ [v]
      draws := s.draws + 1 }
  else { s with obuf := s.obuf.write a v, obufPort := s.obufPort ++ [(a, v)], symbols := s.symbols ++ [v] }

/-- Taking the exception: `raise InvalidOutputLength(wptr)` (R150). `wptr` keeps the index of the failing write. There
is no vector, handler address, saved pc or stack (R153). -/
def raiseInvalidOutputLength (s : State) : State := { setOlen s with call := .error }

/-- How a symbol write ends: the command goes on, or the error ends it at once (R8). -/
inductive Emitted where
  /-- The symbol is written; the command goes on in this state. -/
  | wrote (s : State)
  /-- The write failed and the error is recorded; the command ends in this state. -/
  | raised (s : State)
  deriving DecidableEq, Repr

/-- `EmitSymbol(i)` (R90): the bounds check first, then the write, then `wptr + 1`. -/
def emitSymbol (i : SymbolIndex) (s : State) : Emitted :=
  if s.cap ≤ s.wptr then .raised (raiseInvalidOutputLength s)
  else
    let t := obufWrite s.wptr (alphabet i) s
    .wrote { t with wptr := t.wptr + 1 }

/-- BYTE's last two assignments (R86, R102): the carry registers take what is left of the byte. -/
def latchCarry (r : BitVec 3) (d : Byte) (s : State) : State :=
  { s with current := nextCurrent r d, remain := nextRemain r }

/-- START's assignments (R101). It is also the return from the error (R154): OLEN is cleared and a new call is open.
A new call has no race pending and no symbol yet (log entry 8). -/
def openCall (s : State) : State :=
  { clearOlen s with
    remain := 5#3
    current := 0#5
    wptr := 0
    cap := s.capIn
    call := .busy
    raced := []
    symbols := [] }

/-- END's assignment (R103). `remain` and `current` are left unchanged (92 D11). -/
def closeCall (s : State) : State := { s with call := .done }

/-- Reset (R170): every register takes its reset value; no OBUF cell is touched. The ports, the buffer the host has
provided and the inputs still to come are the host's and stay (log entry 11). -/
def resetRegisters (s : State) : State :=
  { clearOlen s with
    remain := 5#3
    current := 0#5
    wptr := 0
    cap := 0
    call := .idle
    raced := []
    symbols := [] }

/-- `remain` and `current` hold a legal carry (R30(a), R30(b)). -/
def State.carryLegal (s : State) : Bool :=
  decide (1 ≤ s.remain.toNat ∧ s.remain.toNat ≤ 5 ∧ s.current.toNat < 2 ^ (5 - s.remain.toNat))

/-- The real buffer behind OBUF has at least `n` cells, as far as the host has stated its length (R173). -/
def State.bufferHolds (s : State) (n : Nat) : Bool :=
  match s.obufLen with
  | none => true
  | some len => decide (n ≤ len)

/-- An open call's capacity is no larger than the real buffer (R173). -/
def State.capacityTrue (s : State) : Bool := decide (s.call = .busy → s.bufferHolds s.cap = true)

/-- A command is taken only in a state the spec admits: a legal carry (93 I4) and a true capacity (93 I8). -/
def onAdmitted (s : State) (k : Host.Outcome State Fault Refusal) : Host.Outcome State Fault Refusal :=
  if s.carryLegal then
    if s.capacityTrue then k else .refused .capacityBeyondBuffer
  else .refused .illegalCarry

end Sys2Proof.Machine
end

