-- ==== Sys2Proof/Machine/Commands.lean ====
section
/-! DEFINITION. Machine/Commands.lean: the meaning of each command (41_commands.md R100 to R103). -/

namespace Sys2Proof.Machine

/-- NOP (R100): no register and no OBUF cell changes, in every STATE. -/
def execNop (s : State) : Host.Outcome State Fault Refusal := onAdmitted s (.next s)

/-- START (R101): taken in every STATE; it abandons an open call. A `cap_in` larger than the real buffer is a
configuration the spec does not admit (R173, 93 I8). -/
def execStart (s : State) : Host.Outcome State Fault Refusal :=
  onAdmitted s (if s.bufferHolds s.capIn then .next (openCall s) else .refused .capacityBeyondBuffer)

/-- The body of BYTE in an open call (R102): one or two symbols, then the carry. An error ends the command at once
and leaves `remain` and `current` as they were. -/
def consumeByte (d : Byte) (s : State) : State :=
  match emitSymbol (idx1 s.remain s.current d) s with
  | .raised s1 => s1
  | .wrote s1 =>
    if second s.remain then
      match emitSymbol (idx2 s.remain d) s1 with
      | .raised s2 => s2
      | .wrote s2 => latchCarry s.remain d s2
    else latchCarry s.remain d s1

/-- BYTE d (R102): ignored outside BUSY (92 D9). -/
def execByte (d : Byte) (s : State) : Host.Outcome State Fault Refusal :=
  onAdmitted s (if s.call = .busy then .next (consumeByte d s) else .next s)

/-- The body of END in an open call (R103): the tail symbol if carry bits are pending, then DONE. -/
def flushTail (s : State) : State :=
  if tailPending s.remain then
    match emitSymbol (tailIndex s.current) s with
    | .raised s1 => s1
    | .wrote s1 => closeCall s1
  else closeCall s

/-- END (R103): ignored outside BUSY (92 D9). -/
def execEnd (s : State) : Host.Outcome State Fault Refusal :=
  onAdmitted s (if s.call = .busy then .next (flushTail s) else .next s)

end Sys2Proof.Machine
end

