-- ==== Sys2Proof/Machine/HostPort.lean ====
section
/-! DEFINITION. Machine/HostPort.lean: what each input of the host does (30_encoding.md R60; 70_reset_and_hazards.md
R170 to R176). -/

namespace Sys2Proof.Machine

/-- A command word is taken (R60): the `cap_in` port carries its value and the decoded command runs. -/
def takeCommand (w : CmdWord) (capIn : Nat) (s : State) : Host.Outcome State Fault Refusal :=
  exec (decode w) { s with capIn := capIn }

/-- The host provides a buffer of `n` cells (R172 step 1). During a call a buffer shorter than `cap` is not admitted
(R173, 93 I8; log entry 6). One of at least `cap` cells is taken during a call too: a buffer is borrowed for the call
(R171), and the spec does not say what providing one then does (DESIGN CHOICE, log entry 22). The cells keep what
they hold, whichever buffer was there before: the spec is silent on it (DESIGN CHOICE, log entry 20). -/
def lendBuffer (n : Nat) (s : State) : Host.Outcome State Fault Refusal :=
  if s.call = .busy ∧ n < s.cap then .refused .capacityBeyondBuffer else .next { s with obufLen := some n }

/-- The host writes cell `a`. Outside a call, and beyond `cap`, the cell takes the value. Inside a call it races with
the block (R176(b), 93 I6). If the symbol of that cell is already written, a free choice says whether the host's value
or the symbol stands, whatever an earlier race left there. If the block has yet to reach the cell, the host's value
stands until it does. The block never reads OBUF, so nothing else changes (R176). -/
def hostWrite (a : Nat) (v : Byte) (s : State) : State :=
  if s.call = .busy ∧ a < s.cap then
    if a < s.wptr then
      { s with
        obuf := s.obuf.write a (if Config.raceKeepsHost s.draws then v else s.symbols.getD a v)
        draws := s.draws + 1 }
    else { s with obuf := s.obuf.write a v, raced := if a ∈ s.raced then s.raced else a :: s.raced }
  else { s with obuf := s.obuf.write a v }

/-- The effect of one input. -/
def deliver (h : HostInput) (s : State) : Host.Outcome State Fault Refusal :=
  match h with
  | .command w c => takeCommand w c s
  | .reset => .next (resetRegisters s)
  | .lend n => lendBuffer n s
  | .bufferWrite a v => .next (hostWrite a v s)

/-- The write port is quiet at the start of a step. -/
def quietPort (s : State) : State := { s with obufPort := [] }

/-- One step of the block (R60): it takes the oldest input. With none, it holds its registers unchanged (R158). -/
def takeInput (s : State) : Host.Outcome State Fault Refusal :=
  match s.inputs with
  | [] => .next (quietPort s)
  | h :: rest => deliver h { quietPort s with inputs := rest }

/-- The input that carries a row of spec/opcode_table.json: the `nbits` lowest bits of `w` as a command word, with
`cap_in` as it stands. -/
def tableInput (nbits w : Nat) (s : State) : HostInput := .command (BitVec.ofNat 10 (w % 2 ^ nbits)) s.capIn

/-- A call that began with START has ended when STATE reads DONE or ERROR (R175). -/
def State.callEnded (s : State) : Bool := decide (s.call = .done ∨ s.call = .error)

/-- The result of a call that has ended: STATE, COUNT and the cells below COUNT (R175). -/
def State.result (s : State) : CallState × Nat × List Byte :=
  (s.call, s.count, (List.range s.count).map s.hostRead)

end Sys2Proof.Machine
end

