-- ==== Sys2Proof/Machine/Step.lean ====
section
/-! DEFINITION. Machine/Step.lean: the step (30_encoding.md R60: one command word a step). -/

namespace Sys2Proof.Machine

/-- One step: the oldest input of the host is taken and completes (R60, R176). -/
def step (s : State) : Host.Outcome State Fault Refusal := takeInput s

/-- The state whose very next step runs the command word `w`: the word stands first on the command port (log entry
12). -/
def State.withFetchWord (s : State) (nbits w : Nat) : State :=
  { s with inputs := tableInput nbits w s :: s.inputs }

end Sys2Proof.Machine
end

