-- ==== Sys2Proof/Machine/Assembler.lean ====
section
/-! DEFINITION. Machine/Assembler.lean: the command-stream assembly of 30_encoding.md R67 and the pseudo-command ENCODE
of R68. Text is a list of characters (log entry 14). -/

namespace Sys2Proof.Machine

/-- One line of assembly (R67), or the pseudo-command (R68). -/
inductive Line where
  | nop
  | start (cap : Nat)
  | byte (b : Nat)
  | endCall
  | encode (cap : Nat) (bytes : List Nat)
  deriving DecidableEq, Repr

/-- The numbers of a line are in range (R67): a capacity below `2^capW`, bytes of 8 bits. -/
def Line.wf (capW : Nat) : Line → Bool
  | .nop => true
  | .start cap => capInOk capW cap
  | .byte b => byteOperandOk b
  | .endCall => true
  | .encode cap bytes => capInOk capW cap && bytes.all byteOperandOk

/-- ENCODE expands to START, one BYTE for each byte, END (R68); every other line stands for itself. -/
def Line.expand : Line → List Line
  | .encode cap bytes => .start cap :: bytes.map Line.byte ++ [.endCall]
  | l => [l]

/-- The word a line stands for, and the value it wants on `cap_in`: `none` where `cap_in` is "don't care" (R67). The
pseudo-command has no word of its own. -/
def Line.word : Line → List (CmdWord × Option Nat)
  | .nop => [(0x000#10, none)]
  | .start cap => [(0x100#10, some cap)]
  | .byte b => [(0x200#10 ||| BitVec.ofNat 10 b, none)]
  | .endCall => [(0x300#10, none)]
  | .encode _ _ => []

/-- The words of a line, the pseudo-command expanded. -/
def Line.words (l : Line) : List (CmdWord × Option Nat) := l.expand.flatMap Line.word

/-- A word on the command port; `idle` is on `cap_in` where its value does not matter. -/
def portInput (idle : Nat) (w : CmdWord × Option Nat) : HostInput := .command w.1 (w.2.getD idle)

/-! The text of a line. -/

/-- A space or a tab. -/
def isBlank (c : Char) : Bool := c.toNat == 32 || c.toNat == 9

/-- Upper-case code of a character: mnemonics are case-insensitive (R67). -/
def upperCode (c : Char) : Nat := if 97 ≤ c.toNat ∧ c.toNat ≤ 122 then c.toNat - 32 else c.toNat

/-- `;` starts a comment (R67). -/
def dropComment (cs : List Char) : List Char := cs.takeWhile (fun c => c != ';')

/-- A finished token, if it has a character. -/
def tokenOf (acc : List Char) : List (List Char) := if acc.isEmpty then [] else [acc.reverse]

/-- The tokens of a line: runs of characters between blanks, and each comma by itself. -/
def tokens : List Char → List Char → List (List Char)
  | acc, [] => tokenOf acc
  | acc, c :: cs =>
    if isBlank c then tokenOf acc ++ tokens [] cs
    else if c = ',' then tokenOf acc ++ [','] :: tokens [] cs
    else tokens (c :: acc) cs

/-- The value of a digit, 0 to 15. -/
def digitValue (c : Char) : Option Nat :=
  let u := upperCode c
  if 48 ≤ u ∧ u ≤ 57 then some (u - 48) else if 65 ≤ u ∧ u ≤ 70 then some (u - 55) else none

/-- The value of a run of digits in base `base`, after the value `acc`. -/
def digitsValue (base : Nat) : Nat → List Char → Option Nat
  | acc, [] => some acc
  | acc, c :: cs =>
    match digitValue c with
    | some v => if v < base then digitsValue base (acc * base + v) cs else none
    | none => none

/-- A decimal or 0x-hex unsigned number (R67). -/
def parseNumber (cs : List Char) : Option Nat :=
  match cs with
  | [] => none
  | '0' :: x :: d :: ds => if upperCode x = 88 then digitsValue 16 0 (d :: ds) else digitsValue 10 0 cs
  | ds => digitsValue 10 0 ds

/-- The bytes after ENCODE's capacity: a comma before each (R68). -/
def parseByteList : List (List Char) → Option (List Nat)
  | [] => some []
  | [','] :: b :: rest =>
    match parseNumber b, parseByteList rest with
    | some v, some vs => some (v :: vs)
    | _, _ => none
  | _ => none

/-- A line from its tokens: its mnemonic and operands. -/
def parseTokens : List (List Char) → Option Line
  | [] => none
  | m :: args =>
    let name := m.map upperCode
    if name = ['N', 'O', 'P'].map Char.toNat then
      if args = [] then some .nop else none
    else if name = ['E', 'N', 'D'].map Char.toNat then
      if args = [] then some .endCall else none
    else if name = ['S', 'T', 'A', 'R', 'T'].map Char.toNat then
      match args with
      | [n] => (parseNumber n).map Line.start
      | _ => none
    else if name = ['B', 'Y', 'T', 'E'].map Char.toNat then
      match args with
      | [n] => (parseNumber n).map Line.byte
      | _ => none
    else if name = ['E', 'N', 'C', 'O', 'D', 'E'].map Char.toNat then
      match args with
      | n :: rest =>
        match parseNumber n, parseByteList rest with
        | some cap, some bs => some (.encode cap bs)
        | _, _ => none
      | [] => none
    else none

/-- The words of one line of text; a line with only blanks and a comment has none. A line the assembly does not have,
or a number out of range, is `none`. -/
def assembleLine (capW : Nat) (text : List Char) : Option (List (CmdWord × Option Nat)) :=
  match tokens [] (dropComment text) with
  | [] => some []
  | ts =>
    match parseTokens ts with
    | some l => if l.wf capW then some l.words else none
    | none => none

/-- A command stream, one command a line (R67). -/
def assemble (capW : Nat) : List (List Char) → Option (List (CmdWord × Option Nat))
  | [] => some []
  | l :: ls =>
    match assembleLine capW l, assemble capW ls with
    | some ws, some rest => some (ws ++ rest)
    | _, _ => none

end Sys2Proof.Machine
end

