-- ==== Sys2Proof/Machine/Contract.lean ====
section
/-! DEFINITION. Machine/Contract.lean: the words of the whole-call contract (42_encode_contract.md R130 to R143). The
commands of Machine/Commands.lean remain the definition of the block; nothing there uses this file. -/

namespace Sys2Proof.Machine

/-- The required length `ceil(8n/5)` for `n` input bytes (R131). -/
def requiredLength (n : Nat) : Nat := (8 * n + 4) / 5

/-- Bit `p` of the input stream (R132): bit `p mod 8` of byte `p / 8`, and 0 beyond the last byte. -/
def streamBit (bs : List Byte) (p : Nat) : Bool :=
  match bs[p / 8]? with
  | some b => b.getLsbD (p % 8)
  | none => false

/-- `S_k` (R132): the sum over j = 0..4 of `streambit(5k + j) << j`. -/
def symbolIndex (bs : List Byte) (k : Nat) : Nat :=
  ((List.range 5).map (fun j => (streamBit bs (5 * k + j)).toNat <<< j)).sum

/-- The symbol code of `S_k` (R130). -/
def symbolCode (bs : List Byte) (k : Nat) : Byte := alphabet (BitVec.ofNat 5 (symbolIndex bs k))

/-- The inputs of one whole call, `ENCODE cap, b0, ..., b(n-1)` (R68), with `idle` on `cap_in` where it does not
matter. -/
def callInputs (idle cap : Nat) (bs : List Byte) : List HostInput :=
  (Line.words (.encode cap (bs.map BitVec.toNat))).map (portInput idle)

/-- The inputs of an open call: START and the BYTE commands, without END. -/
def openCallInputs (idle cap : Nat) (bs : List Byte) : List HostInput :=
  ((Line.start cap :: bs.map (fun b => Line.byte b.toNat)).flatMap Line.words).map (portInput idle)

/-- `remain` after `k` bytes of a call (R140). -/
def phaseRemain (k : Nat) : Nat :=
  match k % 5 with
  | 0 => 5
  | 1 => 2
  | 2 => 4
  | 3 => 1
  | _ => 3

/-- `current` after the bytes `bs` of a call (R140): the top bits of the last byte. -/
def phaseCurrent (bs : List Byte) : Nat :=
  match bs.getLast? with
  | none => 0
  | some b => b.toNat >>> (3 + phaseRemain bs.length)

end Sys2Proof.Machine
end

