-- ==== Sys2Proof/Machine/Platform.lean ====
section
/-! DEFINITION. Machine/Platform.lean: several encoder instances over one host memory (60_exceptions.md R159;
20_memory.md R51; 93 I3). Each instance is one block of Machine/State.lean with its own command port; the ROMs are the
same constants for all. The host places each instance's buffer (20_memory.md R41; log entry 13). -/

namespace Sys2Proof.Machine

/-- One instance: its block, and where the host has placed its buffer. The cells stand in the platform's memory, so
the block's own `obuf` is empty between steps. -/
structure Encoder where
  base : Nat
  block : State
  deriving DecidableEq, Repr

/-- What the host does to a platform. -/
inductive PlatformInput where
  /-- An input of instance `k` (R159: each instance has its own command port). -/
  | toEncoder (k : Nat) (h : HostInput)
  /-- The host writes an address of its memory. -/
  | memoryWrite (a : Nat) (v : Byte)
  /-- The host places the buffer of instance `k`: `cells` cells from `base` on (R41, R172 step 1). -/
  | place (k : Nat) (base cells : Nat)
  deriving DecidableEq, Repr

/-- The platform: the instances, the host's memory, the races settled so far, the host's inputs to come. -/
structure Platform where
  encoders : List Encoder
  mem : Memory
  draws : Nat
  inputs : List PlatformInput
  deriving DecidableEq, Repr

/-- A platform of `n` instances at reset: each starts in IDLE (R159). Until the host places a buffer the spec gives it no
address (R41). The model then has it at address 0, so the open calls of two unplaced instances overlap (DESIGN CHOICE,
log entry 19). -/
def Platform.reset (n : Nat) : Platform where
  encoders := List.replicate n { base := 0, block := State.reset }
  mem := []
  draws := 0
  inputs := []

/-- The memory from address `base` on, as offsets. -/
def Memory.viewFrom (base : Nat) (m : Memory) : Memory :=
  (m.filter (fun c => base ≤ c.1)).map (fun c => (c.1 - base, c.2))

/-- The memory with its part from `base` on replaced by a view. -/
def Memory.withView (base : Nat) (m view : Memory) : Memory :=
  m.filter (fun c => c.1 < base) ++ view.map (fun c => (c.1 + base, c.2))

/-- The instance is busy and address `a` lies in its OBUF range. -/
def Encoder.claims (e : Encoder) (a : Nat) : Bool :=
  decide (e.block.call = .busy ∧ e.base ≤ a ∧ a < e.base + e.block.cap)

/-- Two busy instances whose OBUF ranges share a cell (R51). -/
def Encoder.clashes (e f : Encoder) : Bool :=
  decide (e.block.call = .busy ∧ f.block.call = .busy ∧
    max e.base f.base < min (e.base + e.block.cap) (f.base + f.block.cap))

/-- No two busy instances' OBUF ranges overlap (93 I3). -/
def Platform.admitted (p : Platform) : Bool := decide (p.encoders.Pairwise (fun e f => e.clashes f = false))

/-- A platform step ends only in a configuration the spec admits (R51, 93 I3). -/
def Platform.settle (p : Platform) : Host.Outcome Platform Fault Refusal :=
  if p.admitted then .next p else .refused .overlappingBuffers

/-- The block of an instance as it runs: the memory from its base on is its OBUF space. -/
def Platform.load (p : Platform) (e : Encoder) : State :=
  { e.block with obuf := p.mem.viewFrom e.base, draws := p.draws, obufPort := [], inputs := [] }

/-- The platform after instance `k`, placed as `e`, has gone to the block state `t`. -/
def Platform.store (p : Platform) (k : Nat) (e : Encoder) (t : State) : Platform :=
  { p with
    encoders := p.encoders.set k { e with block := { t with obuf := [] } }
    mem := p.mem.withView e.base t.obuf
    draws := t.draws }

/-- One input of instance `k`: that block takes one step, on its own part of the memory. -/
def Platform.runEncoder (k : Nat) (h : HostInput) (p : Platform) : Host.Outcome Platform Fault Refusal :=
  match p.encoders[k]? with
  | none => .refused .noSuchEncoder
  | some e =>
    match deliver h (p.load e) with
    | .next t => (p.store k e t).settle
    | .fault f => .fault f
    | .refused r => .refused r

/-- The host writes address `a`: it races with the busy instance whose range holds the address, if there is one
(R176). -/
def Platform.hostWrite (a : Nat) (v : Byte) (p : Platform) : Host.Outcome Platform Fault Refusal :=
  match p.encoders.findIdx? (fun e => e.claims a) with
  | some k =>
    match p.encoders[k]? with
    | some e => p.runEncoder k (.bufferWrite (a - e.base) v)
    | none => .refused .noSuchEncoder
  | none => .next { p with mem := p.mem.write a v }

/-- The host places a buffer. A buffer is borrowed for the duration of a call (R171): it is not moved then. -/
def Platform.placeBuffer (k base cells : Nat) (p : Platform) : Host.Outcome Platform Fault Refusal :=
  match p.encoders[k]? with
  | none => .refused .noSuchEncoder
  | some e =>
    if e.block.call = .busy then .refused .bufferMovedWhileBusy
    else .next { p with
      encoders := p.encoders.set k { base := base, block := { e.block with obufLen := some cells } } }

/-- The effect of one input of the platform. -/
def Platform.deliver (i : PlatformInput) (p : Platform) : Host.Outcome Platform Fault Refusal :=
  match i with
  | .toEncoder k (.bufferWrite a v) =>
    match p.encoders[k]? with
    | some e => p.hostWrite (e.base + a) v
    | none => .refused .noSuchEncoder
  | .toEncoder k h => p.runEncoder k h
  | .memoryWrite a v => p.hostWrite a v
  | .place k base cells => p.placeBuffer k base cells

/-- One step of the platform: the oldest input. A platform the spec does not admit has no step (93 I3). -/
def Platform.step (p : Platform) : Host.Outcome Platform Fault Refusal :=
  if p.admitted then
    match p.inputs with
    | [] => .next p
    | i :: rest => Platform.deliver i { p with inputs := rest }
  else .refused .overlappingBuffers

/-- What the host reads from an address of its memory (R48, 93 I5). -/
def Platform.hostRead (p : Platform) (a : Nat) : Byte := (p.mem.read a).getD (Config.powerOnCell a)

end Sys2Proof.Machine
end

