-- ==== Sys2Proof/Safety.lean ====
section
/-! DEFINITION. Safety.lean: the words claims use for a good state (10_state.md R30; 00_scope.md R5). -/

namespace Sys2Proof.Machine

/-- A state in which the spec gives every command a step: a legal carry (93 I4) and a true capacity (93 I8). -/
def State.Admitted (s : State) : Prop := s.carryLegal = true ∧ s.capacityTrue = true

/-- The invariant of R30, with what the model's own fields add. -/
structure State.Inv (s : State) : Prop where
  /-- R30(a) and R30(b). -/
  carry : s.carryLegal = true
  /-- R30(c). -/
  wptr_le_cap : s.wptr ≤ s.cap
  /-- R30(d). -/
  error_iff_olen : s.call = .error ↔ s.olen = true
  /-- R30(e). -/
  idle_clear : s.call = .idle → s.wptr = 0 ∧ s.remain = 5#3 ∧ s.current = 0#5
  /-- The capacity of an open call is no larger than the real buffer (R173). -/
  capacity : s.capacityTrue = true
  /-- The memory keeps its canonical form. -/
  memory : s.obuf.wf
  /-- One symbol is remembered for each cell below `wptr` (log entry 8). -/
  symbols_length : s.symbols.length = s.wptr
  /-- In an open call a cell the host has raced for lies at or above the next write position (93 I6). -/
  races_ahead : s.call = .busy → ∀ a ∈ s.raced, s.wptr ≤ a

/-- Every number on a CAP_W-bit port or in a CAP_W-bit register fits the width (R5): `cap_in` now and in every command
to come, `cap`, `wptr`, and the addresses on the write port. -/
structure State.FitsWidth (capW : Nat) (s : State) : Prop where
  capIn : s.capIn < 2 ^ capW
  inputs : ∀ w c, HostInput.command w c ∈ s.inputs → c < 2 ^ capW
  cap : s.cap < 2 ^ capW
  wptr : s.wptr < 2 ^ capW
  port : ∀ c ∈ s.obufPort, c.1 < 2 ^ capW

/-- The next input is neither a START command nor the reset input. -/
def State.NoStartOrReset (s : State) : Prop :=
  ∀ h ∈ s.inputs.head?, h ≠ .reset ∧ ∀ w c, h = .command w c → decode w ≠ .start

/-- The writes of the symbols `is` in emission order, the first at offset `a` (20_memory.md R43, R46). -/
def symbolCells (a : Nat) : List SymbolIndex → List Host.Cell
  | [] => []
  | i :: is => (a, alphabet i) :: symbolCells (a + 1) is

/-- `t` is `s` after the symbols `is` have been written from `wptr` on, and nothing else has happened. Each cell written
holds its symbol; only a cell the host has raced for may hold what the host wrote instead (93 I6). Every other cell
reads as before. `raced`, `symbols` and `draws` are the model's own fields (log entry 8): the races of the written cells
are settled, and their symbols are remembered. -/
def State.Wrote (s : State) (is : List SymbolIndex) (t : State) : Prop :=
  ∃ m n, t = { s with
      obuf := m
      obufPort := s.obufPort ++ symbolCells s.wptr is
      wptr := s.wptr + is.length
      raced := s.raced.filter (fun a => decide (a < s.wptr ∨ s.wptr + is.length ≤ a))
      symbols := s.symbols ++ is.map alphabet
      draws := n } ∧
    (∀ c ∈ symbolCells s.wptr is,
      m.read c.1 = some c.2 ∨ (c.1 ∈ s.raced ∧ m.read c.1 = s.obuf.read c.1)) ∧
    (∀ a, a < s.wptr ∨ s.wptr + is.length ≤ a → m.read a = s.obuf.read a) ∧
    ((∀ c ∈ symbolCells s.wptr is, c.1 ∉ s.raced) → n = s.draws)

end Sys2Proof.Machine
end

