-- ==== Sys2Proof/Certificates/Slice0/Obligations.lean ====
section
/-! DEFINITION. Certificates/Slice0/Obligations.lean: the statements for the provers. Each docstring names the rule of
spec/ it formalises. `State.Admitted` and `State.Wrote` are defined in Safety.lean. -/

open Sys2Proof Sys2Proof.Machine

/-! ## Encoding -/

/-- R65, R69: every word belongs to exactly one row of the opcode map, and decodes to that row's command; BYTE's operand
is bits [7:0]. -/
def Obligations.DecodeFollowsOpcodeMap : Prop :=
  ∀ w : CmdWord, (∃! r, r ∈ opcodeMap ∧ r.holds w = true) ∧
    (∀ r ∈ opcodeMap, r.holds w = true → (decode w).mnemonic = r.mnemonic) ∧
    (∀ d, decode w = .byte d → ∀ j : Nat, j < 8 → d.getLsbD j = w.getLsbD j)

/-- Decoding the encoding of a command gives it back. Encoding a decoded word gives the word back with DATA set to 0
where it is ignored (R63). -/
def Obligations.DecodeEncodeAgree : Prop :=
  (∀ i : Instr, i.wf = true → decode (encode i) = i) ∧
    (∀ w : CmdWord, encode (decode w) = if w &&& 0x300#10 = 0x200#10 then w else w &&& 0x300#10)

/-- R63: for NOP, START and END any DATA selects the same operation with the same effect, and the assembler's word has
DATA 0. -/
def Obligations.DataFieldIgnored : Prop :=
  (∀ w w' : CmdWord, w &&& 0x300#10 = w' &&& 0x300#10 → w &&& 0x300#10 ≠ 0x200#10 →
    decode w = decode w' ∧ ∀ c s, takeCommand w c s = takeCommand w' c s) ∧
  ∀ i ∈ [Instr.nop, Instr.start, Instr.endCall], dataField (encode i) = 0#8

/-- Words written out from R60, R61 and R67. -/
def Obligations.WrittenWordsDecode : Prop :=
  decode 0b00_00000000#10 = .nop ∧ decode 0b01_00000000#10 = .start ∧ decode 0b01_11111111#10 = .start ∧
    decode 0b10_11111111#10 = .byte 0xFF#8 ∧ decode 0b10_01000001#10 = .byte 0x41#8 ∧
    decode 0b11_00000000#10 = .endCall ∧ decodeTableWord 16 0x2A5 = some (.byte 0xA5#8) ∧
    decodeTableWord 16 0x400 = none

/-- A step runs the decoded command (R60): the oldest word on the command port is taken with its `cap_in`; around the
command, the step only takes the input off and quiets the write port. -/
def Obligations.StepRunsDecodedCommand : Prop :=
  ∀ (s : State) (w : CmdWord) (c : Nat) (rest : List HostInput), s.inputs = .command w c :: rest →
    step s = exec (decode w) { s with inputs := rest, capIn := c, obufPort := [] }

/-! ## Reset and idling -/

/-- R170: power-on reset, and an assertion of the reset input in any state, an open call included, set every register
to its reset value, so that STATUS reads 0x00 and COUNT reads 0; no OBUF cell is touched. The rest of the next state is
the model's choice: the inputs still to come, the value on `cap_in`, the buffer's length and `draws` stay, and `raced`
and `symbols` are emptied (log entry 11). -/
def Obligations.ResetSetsEveryRegister : Prop :=
  (State.reset.call = .idle ∧ State.reset.remain = 5#3 ∧ State.reset.current = 0#5 ∧ State.reset.wptr = 0 ∧
    State.reset.cap = 0 ∧ State.reset.olen = false ∧ State.reset.status = 0x00#8 ∧ State.reset.count = 0) ∧
  ∀ (s : State) (rest : List HostInput), s.inputs = .reset :: rest →
    ∃ t, step s = .next t ∧ t.status = 0x00#8 ∧ t.count = 0 ∧ t = { s with
      call := .idle, remain := 5#3, current := 0#5, wptr := 0, cap := 0, olen := false
      inputs := rest, obufPort := [], raced := [], symbols := [] }

/-- R158: with no command the block holds its registers and OBUF unchanged. That the empty queue of inputs is 'no
command' (log entry 2) and that the write port is then quiet (log entry 10) are the model's choices. -/
def Obligations.IdleStepHoldsRegisters : Prop :=
  ∀ s : State, s.inputs = [] → step s = .next { s with obufPort := [] }

/-! ## Invariants -/

/-- The invariant holds at reset. -/
def Obligations.ResetMeetsInvariant : Prop := State.reset.Inv

/-- The invariant of R30, with the model's own clauses, is kept by every step from every state that has it. -/
def Obligations.StepKeepsInvariant : Prop :=
  ∀ s t : State, s.Inv → step s = .next t → t.Inv

/-- R30: every state reached from power-on reset by any sequence of the host's inputs satisfies (a) to (e). -/
def Obligations.ReachableStatesSatisfyR30 : Prop :=
  ∀ (is : List HostInput) (k : Nat) (t : State),
    Host.Core.run core k { State.reset with inputs := is } = .next t →
    (1 ≤ t.remain.toNat ∧ t.remain.toNat ≤ 5) ∧ t.current.toNat < 2 ^ (5 - t.remain.toNat) ∧ t.wptr ≤ t.cap ∧
      (t.call = .error ↔ t.olen = true) ∧ (t.call = .idle → t.wptr = 0 ∧ t.remain = 5#3 ∧ t.current = 0#5)

/-- R5, R88: whatever width CAP_W has, no step makes a number outgrow it: `wptr` never wraps, and every address on the
write port fits. -/
def Obligations.StepKeepsCapWidth : Prop :=
  ∀ (capW : Nat) (s t : State), s.Inv → s.FitsWidth capW → step s = .next t → t.FitsWidth capW

/-! ## Status views -/

/-- R27: STATUS holds STATE in [1:0], OLEN in [2] and 0 in [7:3]; so it reads 0x00 in IDLE, 0x01 in BUSY, 0x02 in DONE
and 0x07 in ERROR. -/
def Obligations.StatusView : Prop :=
  (∀ s : State, s.status.extractLsb' 0 2 = s.call.code ∧ s.status.getLsbD 2 = s.olen ∧
    s.status.extractLsb' 3 5 = 0#5) ∧
  ∀ s : State, s.Inv →
    s.status = match s.call with
      | .idle => 0x00#8
      | .busy => 0x01#8
      | .done => 0x02#8
      | .error => 0x07#8

/-! ## The commands -/

/-- No command traps (R65, R151): in an admitted state every command answers a next state, if START's capacity is no
larger than the buffer (R173). -/
def Obligations.EveryCommandCompletes : Prop :=
  ∀ (i : Instr) (s : State), s.Admitted → (i = .start → s.bufferHolds s.capIn = true) → ∃ t, exec i s = .next t

/-- R100: NOP changes no register and no OBUF cell, in every STATE. -/
def Obligations.NopChangesNothing : Prop :=
  ∀ s : State, s.Admitted → exec .nop s = .next s

/-- R101: START, in every STATE, sets the carry to empty, `wptr` to 0, `cap` from `cap_in`, OLEN to 0 and STATE to BUSY,
and writes no OBUF cell. That no race is pending in a new call, and no symbol yet, is log entry 8. -/
def Obligations.StartOpensCall : Prop :=
  ∀ s : State, s.Admitted → s.bufferHolds s.capIn = true →
    exec .start s = .next { s with
      remain := 5#3, current := 0#5, wptr := 0, cap := s.capIn, olen := false, call := .busy, raced := []
      symbols := [] }

/-- R173, 93 I8: a configuration with a capacity larger than the buffer is refused. When it is refused is the model's
choice (log entry 6): at a START whose capacity is larger than the buffer the host has stated (log entry 5), and at every
command of an open call whose capacity is. -/
def Obligations.CapacityBeyondBufferRefused : Prop :=
  (∀ (s : State) (len : Nat), s.Admitted → s.obufLen = some len → len < s.capIn →
    exec .start s = .refused .capacityBeyondBuffer) ∧
  (∀ (i : Instr) (s : State) (len : Nat), s.carryLegal = true → s.call = .busy → s.obufLen = some len → len < s.cap →
    exec i s = .refused .capacityBeyondBuffer)

/-- 93 I4: in a state with `remain` in 0, 6, 7 or `current >= 2^(5 - remain)` every command is refused. That this is so for
every command, and for commands alone (an idle step and reset are taken), is log entry 7. -/
def Obligations.IllegalCarryRefused : Prop :=
  ∀ (i : Instr) (s : State),
    (s.remain = 0#3 ∨ s.remain = 6#3 ∨ s.remain = 7#3 ∨ 2 ^ (5 - s.remain.toNat) ≤ s.current.toNat) →
    exec i s = .refused .illegalCarry

/-- R102, R103: outside BUSY, BYTE and END have no effect: no register change and no OBUF write. -/
def Obligations.ByteAndEndIgnoredOutsideCall : Prop :=
  ∀ (s : State) (d : Byte), s.Admitted → s.call ≠ .busy → exec (.byte d) s = .next s ∧ exec .endCall s = .next s

/-- R86, R102: with `remain` 5 or 4 a BYTE with room for its symbol writes exactly that symbol, at cell `wptr`, and
takes the carry of R86's table. Nothing else changes (races: log entry 8). -/
def Obligations.ByteWritesOneSymbol : Prop :=
  ∀ (s : State) (d : Byte), s.Admitted → s.call = .busy → s.wptr < s.cap →
    (s.remain = 5#3 → ∃ u, s.Wrote [d.extractLsb' 0 5] u ∧
      exec (.byte d) s = .next { u with current := (d.extractLsb' 5 3).setWidth 5, remain := 2#3 }) ∧
    (s.remain = 4#3 → ∃ u, s.Wrote [d.extractLsb' 0 4 ++ s.current.extractLsb' 0 1] u ∧
      exec (.byte d) s = .next { u with current := (d.extractLsb' 4 4).setWidth 5, remain := 1#3 })

/-- R86, R102: with `remain` 2, 1 or 3 a BYTE with room for both writes exactly two symbols, at `wptr` and `wptr + 1`,
and takes the carry of R86's table. Nothing else changes (races: log entry 8). -/
def Obligations.ByteWritesTwoSymbols : Prop :=
  ∀ (s : State) (d : Byte), s.Admitted → s.call = .busy → s.wptr + 1 < s.cap →
    (s.remain = 2#3 → ∃ u, s.Wrote [d.extractLsb' 0 2 ++ s.current.extractLsb' 0 3, d.extractLsb' 2 5] u ∧
      exec (.byte d) s = .next { u with current := (d.extractLsb' 7 1).setWidth 5, remain := 4#3 }) ∧
    (s.remain = 1#3 → ∃ u, s.Wrote [d.extractLsb' 0 1 ++ s.current.extractLsb' 0 4, d.extractLsb' 1 5] u ∧
      exec (.byte d) s = .next { u with current := (d.extractLsb' 6 2).setWidth 5, remain := 3#3 }) ∧
    (s.remain = 3#3 → ∃ u, s.Wrote [d.extractLsb' 0 3 ++ s.current.extractLsb' 0 2, d.extractLsb' 3 5] u ∧
      exec (.byte d) s = .next { u with current := 0#5, remain := 5#3 })

/-- R102, R150: a BYTE that finds the buffer full raises at its first symbol: OLEN 1, STATE ERROR and nothing else. -/
def Obligations.ByteFirstWriteRaises : Prop :=
  ∀ (s : State) (d : Byte), s.Admitted → s.call = .busy → s.cap ≤ s.wptr →
    exec (.byte d) s = .next { s with olen := true, call := .error }

/-- R102, R152: a BYTE with two symbols and room for one writes the first, which stays, and raises at the second;
`remain` and `current` are unchanged. Only a cell the host has raced for may hold what the host wrote instead, and the
model's own fields `raced`, `symbols` and `draws` follow the write (`State.Wrote`, log entry 8). -/
def Obligations.ByteSecondWriteRaises : Prop :=
  ∀ (s : State) (d : Byte), s.Admitted → s.call = .busy → s.wptr + 1 = s.cap → s.remain.toNat ≤ 3 →
    ∃ u, s.Wrote [idx1 s.remain s.current d] u ∧
      exec (.byte d) s = .next { u with olen := true, call := .error }

/-- R103: with no carry pending END writes nothing and succeeds, whatever the room. -/
def Obligations.EndWithoutTail : Prop :=
  ∀ s : State, s.Admitted → s.call = .busy → s.remain = 5#3 → exec .endCall s = .next { s with call := .done }

/-- R87, R103: with carry bits pending and room, END writes the tail symbol, whose index is `current`, and closes the
call; `remain` and `current` are unchanged (races: log entry 8). -/
def Obligations.EndWritesTail : Prop :=
  ∀ s : State, s.Admitted → s.call = .busy → s.remain ≠ 5#3 → s.wptr < s.cap →
    ∃ u, s.Wrote [s.current] u ∧ exec .endCall s = .next { u with call := .done }

/-- R103, R150: with carry bits pending and a full buffer END raises: OLEN 1, STATE ERROR and nothing else. -/
def Obligations.EndTailRaises : Prop :=
  ∀ s : State, s.Admitted → s.call = .busy → s.remain ≠ 5#3 → s.cap ≤ s.wptr →
    exec .endCall s = .next { s with olen := true, call := .error }

/-! ## OBUF: what every command writes -/

/-- R42, R142: each command makes at most two OBUF writes, at consecutive rising offsets that start at `wptr`, and none
at an offset of `cap` or above; `wptr` counts them, unless the command is START. -/
def Obligations.WritesInOrderBelowCap : Prop :=
  ∀ (i : Instr) (s t : State), s.Inv → exec i s = .next t →
    ∃ ws : List Host.Cell, t.obufPort = s.obufPort ++ ws ∧ ws.length ≤ 2 ∧
      ws.map Prod.fst = List.range' s.wptr ws.length ∧ (∀ c ∈ ws, c.1 < t.cap) ∧
      (i ≠ .start → t.wptr = s.wptr + ws.length) ∧ (i = .start → t.wptr = 0 ∧ ws = [])

/-- R41, R46: the memory frame of every command. A cell that the write port does not name reads as before; a cell it
names holds the symbol written, or, where the host has raced for it, what the host wrote (93 I6). -/
def Obligations.MemoryChangesOnlyThroughPort : Prop :=
  ∀ (i : Instr) (s t : State), exec i s = .next t →
    ∃ ws : List Host.Cell, t.obufPort = s.obufPort ++ ws ∧
      (∀ a, (∀ c ∈ ws, c.1 ≠ a) → t.obuf.read a = s.obuf.read a) ∧
      (∀ c ∈ ws, t.obuf.read c.1 = some c.2 ∨ (c.1 ∈ s.raced ∧ t.obuf.read c.1 = s.obuf.read c.1))

/-- R137: every byte a command writes is one of 'A' to 'Z' and '2' to '7'. -/
def Obligations.WrittenBytesAreSymbols : Prop :=
  ∀ (i : Instr) (s t : State) (ws : List Host.Cell), exec i s = .next t → t.obufPort = s.obufPort ++ ws →
    ∀ c ∈ ws, (0x41 ≤ c.2.toNat ∧ c.2.toNat ≤ 0x5A) ∨ (0x32 ≤ c.2.toNat ∧ c.2.toNat ≤ 0x37)

/-- R41, R136: the block never reads OBUF. Two states that differ only in OBUF go to states that differ only in OBUF,
and end alike. -/
def Obligations.CommandsNeverReadObuf : Prop :=
  ∀ (i : Instr) (s t : State) (m : Memory), exec i s = .next t →
    ∃ m', exec i { s with obuf := m } = .next { t with obuf := m' }

/-! ## The error and the writers of each register -/

/-- R150: the error arises only in BYTE or END of an open call with the buffer full. It records OLEN 1, cause code 1 and
STATUS 0x07; COUNT is then the number of symbols written and equals `cap`; `remain` and `current` are unchanged; no
cell at or above COUNT is written. -/
def Obligations.ErrorRecordsFailure : Prop :=
  ∀ (i : Instr) (s t : State), s.Inv → s.call ≠ .error → exec i s = .next t → t.call = .error →
    s.call = .busy ∧ (i = .endCall ∨ ∃ d, i = .byte d) ∧ t.olen = true ∧ t.cause.map Cause.code = some 1 ∧
      t.status = 0x07#8 ∧ t.count = t.cap ∧ t.cap = s.cap ∧ t.remain = s.remain ∧ t.current = s.current ∧
      ∀ a, t.count ≤ a → t.obuf.read a = s.obuf.read a

/-- R154: ERROR is left only by START or by the reset input, and both clear OLEN. -/
def Obligations.ErrorLeftOnlyByStartOrReset : Prop :=
  ∀ s t : State, s.Inv → s.call = .error → step s = .next t →
    (s.NoStartOrReset → t.call = .error ∧ t.olen = true) ∧ (t.call ≠ .error → ¬ s.NoStartOrReset ∧ t.olen = false)

/-- R21: START writes BUSY, END writes DONE, the error writes ERROR, reset gives IDLE; nothing else writes STATE. -/
def Obligations.OnlyNamedWritersOfState : Prop :=
  ∀ s t : State, s.Inv → step s = .next t →
    t.call = s.call ∨
    (t.call = .busy ∧ ∃ w c rest, s.inputs = .command w c :: rest ∧ decode w = .start) ∨
    (t.call = .done ∧ s.call = .busy ∧ ∃ w c rest, s.inputs = .command w c :: rest ∧ decode w = .endCall) ∨
    (t.call = .error ∧ s.call = .busy ∧ s.olen = false ∧ t.olen = true) ∨
    (t.call = .idle ∧ ∃ rest, s.inputs = .reset :: rest)

/-- R26: OLEN is set to 1 only by the error, and cleared to 0 only by START and by reset. -/
def Obligations.OnlyNamedWritersOfOlen : Prop :=
  ∀ s t : State, s.Inv → step s = .next t →
    (s.olen = false → t.olen = true → s.call = .busy ∧ t.call = .error) ∧
    (s.olen = true → t.olen = false → ¬ s.NoStartOrReset)

/-- R25: START latches `cap` from `cap_in`, and nothing else but reset writes it. -/
def Obligations.OnlyStartAndResetWriteCap : Prop :=
  (∀ s t : State, exec .start s = .next t → t.cap = s.capIn) ∧
  (∀ s t : State, s.NoStartOrReset → step s = .next t → t.cap = s.cap)

/-- R22, R23: `remain` and `current` are written only by START, BYTE and reset. -/
def Obligations.OnlyNamedWritersOfCarry : Prop :=
  ∀ s t : State, s.NoStartOrReset → step s = .next t →
    (∀ w c rest d, s.inputs = .command w c :: rest → decode w ≠ .byte d) →
    t.remain = s.remain ∧ t.current = s.current

/-! ## The datapath -/

/-- R80: `MASK[k] = 2^k - 1` for every one of the 9 entries. -/
def Obligations.MaskRomContents : Prop := ∀ k : Fin 9, maskRom[k] = BitVec.ofNat 8 (2 ^ k.val - 1)

/-- R81: the formula of the symbol codes, and the mapper is injective. -/
def Obligations.AlphabetRomContents : Prop :=
  (∀ i : SymbolIndex, (alphabet i).toNat = if i.toNat < 26 then 0x41 + i.toNat else 0x18 + i.toNat) ∧
    ∀ i j : SymbolIndex, alphabet i = alphabet j → i = j

/-- R82: on a legal carry the OR of the first index never overlaps and stays below 32, so nothing is lost in the 5-bit
index. With `remain` 5 it is the byte's low five bits. -/
def Obligations.FirstIndexPacksExactly : Prop :=
  ∀ (r : BitVec 3) (c : BitVec 5) (d : Byte), 1 ≤ r.toNat → r.toNat ≤ 5 → c.toNat < 2 ^ (5 - r.toNat) →
    ((d.toNat % 2 ^ r.toNat) <<< (5 - r.toNat)) &&& c.toNat = 0 ∧
    (idx1 r c d).toNat = ((d.toNat % 2 ^ r.toNat) <<< (5 - r.toNat)) ||| c.toNat ∧
    (r = 5#3 → idx1 r c d = d.extractLsb' 0 5)

/-- R84: the mask removes nothing from the extracted carry, which is below `2^(8-r)`. -/
def Obligations.ExtractedCarryIsHighBits : Prop :=
  ∀ (r : BitVec 3) (d : Byte), 1 ≤ r.toNat → r.toNat ≤ 5 →
    extracted r d = d.toNat >>> r.toNat ∧ extracted r d < 2 ^ (8 - r.toNat)

/-- R85: there is a second symbol exactly when `r <= 3`; its index is `d[r+4:r]`, `t'` is what is left above it and
`inner'` is `3 - r`; without a second symbol both are the first symbol's. -/
def Obligations.SecondSymbolFromByte : Prop :=
  ∀ (r : BitVec 3) (d : Byte), 1 ≤ r.toNat → r.toNat ≤ 5 →
    (second r = true ↔ r.toNat ≤ 3) ∧
    (r.toNat ≤ 3 → idx2 r d = d.extractLsb' r.toNat 5 ∧ leftover r d = extracted r d >>> 5 ∧
      leftoverBits r = 3 - r.toNat) ∧
    (¬ r.toNat ≤ 3 → leftover r d = extracted r d ∧ leftoverBits r = 8 - r.toNat)

/-- R86: the next carry is `remain' = 5 - inner'`, `current' = t'`, it is a legal carry again, and `remain` runs through
5, 2, 4, 1, 3. -/
def Obligations.NextCarryIsLegal : Prop :=
  (∀ (r : BitVec 3) (d : Byte), 1 ≤ r.toNat → r.toNat ≤ 5 →
    (nextRemain r).toNat = 5 - leftoverBits r ∧ (nextCurrent r d).toNat = leftover r d ∧
    1 ≤ (nextRemain r).toNat ∧ (nextRemain r).toNat ≤ 5 ∧
    (nextCurrent r d).toNat < 2 ^ (5 - (nextRemain r).toNat)) ∧
  nextRemain 5#3 = 2#3 ∧ nextRemain 2#3 = 4#3 ∧ nextRemain 4#3 = 1#3 ∧ nextRemain 1#3 = 3#3 ∧ nextRemain 3#3 = 5#3

/-- R87: on a legal carry the tail index is `current`, its high `remain` bits are zero, and it is pending exactly when
`remain` is not 5. -/
def Obligations.TailIndexHighBitsZero : Prop :=
  ∀ (r : BitVec 3) (c : BitVec 5), 1 ≤ r.toNat → r.toNat ≤ 5 → c.toNat < 2 ^ (5 - r.toNat) →
    tailIndex c = c ∧ (∀ j, 5 - r.toNat ≤ j → (tailIndex c).getLsbD j = false) ∧ (tailPending r = true ↔ r ≠ 5#3)

/-! ## The whole call -/

/-- R130, R135: a whole call, from any admitted starting state. With room for all symbols it ends in DONE with exactly
the symbols of R132; with less it ends in ERROR with the buffer full of the first `cap` of them. No other cell is
touched. The inputs after the call are still to come (log entry 2). -/
def Obligations.EncodeContract : Prop :=
  ∀ (s : State) (idle cap : Nat) (bs : List Byte) (rest : List HostInput),
    s.Admitted → s.bufferHolds cap = true → s.inputs = callInputs idle cap bs ++ rest →
    ∃ t, Host.Core.run core (bs.length + 2) s = .next t ∧ t.inputs = rest ∧
      (requiredLength bs.length ≤ cap →
        t.call = .done ∧ t.olen = false ∧ t.count = requiredLength bs.length ∧
        (∀ k, k < requiredLength bs.length → t.obuf.read k = some (symbolCode bs k)) ∧
        ∀ a, requiredLength bs.length ≤ a → t.obuf.read a = s.obuf.read a) ∧
      (cap < requiredLength bs.length →
        t.call = .error ∧ t.olen = true ∧ t.count = cap ∧
        (∀ k, k < cap → t.obuf.read k = some (symbolCode bs k)) ∧
        ∀ a, cap ≤ a → t.obuf.read a = s.obuf.read a)

/-- R131: the required length is the ceiling of 8n/5; a group of 5 bytes has 8 symbols and a last group of 1, 2, 3 or 4
bytes has 2, 4, 5 or 7. -/
def Obligations.LengthFormula : Prop :=
  ∀ n : Nat, 8 * n ≤ 5 * requiredLength n ∧ 5 * requiredLength n < 8 * n + 5 ∧
    requiredLength (n + 5) = requiredLength n + 8 ∧ requiredLength (5 * n + 1) = 8 * n + 2 ∧
    requiredLength (5 * n + 2) = 8 * n + 4 ∧ requiredLength (5 * n + 3) = 8 * n + 5 ∧
    requiredLength (5 * n + 4) = 8 * n + 7

/-- R132: bit `j` of `S_k` is stream bit `5k + j`, least-significant bit first, and `S_k` is a 5-bit index. -/
def Obligations.SymbolBitsAreStreamBits : Prop :=
  ∀ (bs : List Byte) (k : Nat), symbolIndex bs k < 32 ∧
    (∀ j, j < 5 → (symbolIndex bs k).testBit j = streamBit bs (5 * k + j)) ∧
    (∀ p, 8 * bs.length ≤ p → streamBit bs p = false) ∧
    (∀ i b (h : i < bs.length), b < 8 → streamBit bs (8 * i + b) = (bs[i]).getLsbD b)

/-- R133: a call succeeds exactly when `cap >= N`. -/
def Obligations.CallSucceedsIffCapSuffices : Prop :=
  ∀ (s t : State) (idle cap : Nat) (bs : List Byte) (rest : List HostInput),
    s.Admitted → s.bufferHolds cap = true → s.inputs = callInputs idle cap bs ++ rest →
    Host.Core.run core (bs.length + 2) s = .next t → (t.call = .done ↔ requiredLength bs.length ≤ cap)

/-- R175: the result of a call that has succeeded is DONE, the count N and the N symbols as the host reads them. -/
def Obligations.ResultOfSuccessfulCall : Prop :=
  ∀ (s : State) (idle cap : Nat) (bs : List Byte) (rest : List HostInput),
    s.Admitted → s.bufferHolds cap = true → s.inputs = callInputs idle cap bs ++ rest →
    requiredLength bs.length ≤ cap →
    ∃ t, Host.Core.run core (bs.length + 2) s = .next t ∧ t.callEnded = true ∧
      t.result = (.done, requiredLength bs.length, (List.range (requiredLength bs.length)).map (symbolCode bs))

/-- R134: where a failure falls. The failing command is BYTE number `j` when `cap` lies in that byte's part of the
symbols, and otherwise END: just before it the call is open, just after it the call is in ERROR with COUNT = `cap`. -/
def Obligations.FailurePosition : Prop :=
  ∀ (s : State) (idle cap : Nat) (bs : List Byte) (rest : List HostInput),
    s.Admitted → s.bufferHolds cap = true → s.inputs = callInputs idle cap bs ++ rest →
    (∀ j, 1 ≤ j → j ≤ bs.length → 8 * (j - 1) / 5 ≤ cap → cap < 8 * j / 5 →
      ∃ t u, Host.Core.run core j s = .next t ∧ t.call = .busy ∧
        Host.Core.run core (j + 1) s = .next u ∧ u.call = .error ∧ u.count = cap) ∧
    (cap = 8 * bs.length / 5 → 8 * bs.length % 5 ≠ 0 →
      ∃ t u, Host.Core.run core (bs.length + 1) s = .next t ∧ t.call = .busy ∧
        Host.Core.run core (bs.length + 2) s = .next u ∧ u.call = .error ∧ u.count = cap)

/-- R139: empty input. `START cap; END` succeeds with COUNT = 0 for every `cap`, 0 included, and writes no cell. -/
def Obligations.EmptyInputSucceeds : Prop :=
  ∀ (s : State) (idle cap : Nat) (rest : List HostInput),
    s.Admitted → s.bufferHolds cap = true → s.inputs = callInputs idle cap [] ++ rest →
    ∃ t, Host.Core.run core 2 s = .next t ∧ t.call = .done ∧ t.olen = false ∧ t.count = 0 ∧ t.obuf = s.obuf

/-- R140: the phase law. After the BYTE commands of `bs` since START with no error the call is open, and `remain` and
`current` are those of the phase. R141: `wptr = floor(8k/5)`. R134: there is no error as long as that fits. The inputs
after these are still to come (log entry 2). -/
def Obligations.PhaseLaw : Prop :=
  ∀ (s : State) (idle cap : Nat) (bs : List Byte) (rest : List HostInput),
    s.Admitted → s.bufferHolds cap = true → s.inputs = openCallInputs idle cap bs ++ rest →
    8 * bs.length / 5 ≤ cap →
    ∃ t, Host.Core.run core (bs.length + 1) s = .next t ∧ t.inputs = rest ∧ t.call = .busy ∧ t.olen = false ∧
      t.remain.toNat = phaseRemain bs.length ∧ t.current.toNat = phaseCurrent bs ∧ t.wptr = 8 * bs.length / 5 ∧
      (t.remain = 5#3 ↔ bs.length % 5 = 0)

/-! ## The host -/

/-- R171, R176: a host write outside an open call's cells puts its value in the cell and changes nothing else. -/
def Obligations.HostWriteOutsideCall : Prop :=
  ∀ (s : State) (a : Nat) (v : Byte) (rest : List HostInput), s.inputs = .bufferWrite a v :: rest →
    ¬ (s.call = .busy ∧ a < s.cap) →
    ∃ m, step s = .next { s with obuf := m, inputs := rest, obufPort := [] } ∧
      ∀ b, m.read b = if b = a then some v else s.obuf.read b

/-- R176, 93 I6: a host write to a cell of an open call races. A cell whose symbol is written holds the host's value or
the symbol; a cell the block has not reached holds the host's value. Every other cell and every register is unchanged.
`raced`, `symbols` and `draws` are the model's own fields (log entry 8): a cell not reached is now raced for, no other
cell becomes or ceases to be, and a settled race advances `draws`. -/
def Obligations.HostWriteRace : Prop :=
  ∀ (s : State) (a : Nat) (v : Byte) (rest : List HostInput), s.inputs = .bufferWrite a v :: rest →
    s.call = .busy → a < s.cap →
    ∃ m, step s = .next { s with
        obuf := m, inputs := rest, obufPort := []
        raced := if a < s.wptr ∨ a ∈ s.raced then s.raced else a :: s.raced
        draws := if a < s.wptr then s.draws + 1 else s.draws } ∧
      (a < s.wptr → m.read a = some v ∨ ∃ x, s.symbols[a]? = some x ∧ m.read a = some x) ∧
      (s.wptr ≤ a → m.read a = some v) ∧
      ∀ b, b ≠ a → m.read b = s.obuf.read b

/-- R48, 93 I6: a host read during a command returns the old or the new value of the cell. A cell the command does not
write has only one, and a cell it writes (with no host race) has its old value and the symbol. -/
def Obligations.ReadDuringCommand : Prop :=
  ∀ (i : Instr) (s t : State), exec i s = .next t →
    ∃ ws : List Host.Cell, t.obufPort = s.obufPort ++ ws ∧
      (∀ a v, (∀ c ∈ ws, c.1 ≠ a) → (s.mayReadDuring t a v ↔ v = s.hostRead a)) ∧
      (∀ c ∈ ws, c.1 ∉ s.raced → ∀ v, (s.mayReadDuring t c.1 v ↔ v = s.hostRead c.1 ∨ v = c.2))

/-- R172, R173: the host provides a buffer. That its length is state is log entry 5, that its cells keep what they hold is
log entry 20, and that one of at least `cap` cells is taken during a call is log entry 22. In an open call a buffer
shorter than `cap` is refused here: 93 I8 names the configuration, and this moment is the model's choice (log entry 6). -/
def Obligations.LendBuffer : Prop :=
  ∀ (s : State) (n : Nat) (rest : List HostInput), s.inputs = .lend n :: rest →
    (¬ (s.call = .busy ∧ n < s.cap) →
      step s = .next { s with obufLen := some n, inputs := rest, obufPort := [] }) ∧
    (s.call = .busy → n < s.cap → step s = .refused .capacityBeyondBuffer)

/-! ## Several instances -/

/-- R159: a command or a reset of one instance leaves every other instance as it is, and every cell another busy
instance owns. The platform around the instances is the model's choice (log entry 13). -/
def Obligations.InstancesDoNotInteract : Prop :=
  ∀ (p q : Platform) (k : Nat) (h : HostInput) (rest : List PlatformInput),
    p.inputs = .toEncoder k h :: rest → (h = .reset ∨ ∃ w c, h = .command w c) →
    p.step = .next q →
    ∀ j, j ≠ k → q.encoders[j]? = p.encoders[j]? ∧
      ∀ f a, p.encoders[j]? = some f → f.claims a = true → q.mem.read a = p.mem.read a

/-- R51, 93 I3: a configuration in which two busy instances' OBUF ranges share a cell is not admitted. The platform, and
that it then has no step, are the model's choice (log entry 13). -/
def Obligations.OverlappingBuffersRefused : Prop :=
  ∀ (p : Platform) (j k : Nat) (e f : Encoder) (a : Nat), j ≠ k → p.encoders[j]? = some e → p.encoders[k]? = some f →
    e.claims a = true → f.claims a = true → p.step = .refused .overlappingBuffers

/-- R51, 93 I3: a configuration in which two busy instances' OBUF ranges share a cell is not admitted. That it is the
START which would make it that is refused is the model's choice (log entry 13). -/
def Obligations.StartIntoOwnedCellsRefused : Prop :=
  ∀ (p : Platform) (j k : Nat) (e f : Encoder) (w : CmdWord) (c a : Nat) (rest : List PlatformInput),
    p.inputs = .toEncoder k (.command w c) :: rest → decode w = .start → j ≠ k →
    p.encoders[k]? = some e → p.encoders[j]? = some f → p.admitted = true → e.block.Admitted →
    e.block.bufferHolds c = true → f.claims a = true → e.base ≤ a → a < e.base + c →
    p.step = .refused .overlappingBuffers

/-- R159: each instance has its own registers and command port. A command of instance `k` runs on that block as on a block
alone, and its writes reach the host's memory at the block's offset from the base. A START does if its range is free of
the cells other busy instances own; one whose range is not is `StartIntoOwnedCellsRefused`. The platform, one memory and
one list of inputs around the instances, is the model's choice (log entry 13). -/
def Obligations.PlatformRunsBlockCommand : Prop :=
  ∀ (p : Platform) (k : Nat) (e : Encoder) (w : CmdWord) (c : Nat) (t : State) (rest : List PlatformInput),
    p.inputs = .toEncoder k (.command w c) :: rest → p.admitted = true → p.encoders[k]? = some e →
    (decode w = .start → ∀ (j : Nat) (f : Encoder) (a : Nat), j ≠ k → p.encoders[j]? = some f → f.claims a = true →
      ¬ (e.base ≤ a ∧ a < e.base + c)) →
    exec (decode w) { p.load e with capIn := c } = .next t →
    ∃ q, p.step = .next q ∧ q.encoders[k]? = some { e with block := { t with obuf := [] } } ∧
      (∀ a, q.mem.read (e.base + a) = t.obuf.read a) ∧ (∀ a, a < e.base → q.mem.read a = p.mem.read a) ∧
      q.inputs = rest

/-- R51, 93 I3: a configuration in which two busy instances' ranges overlap is not admitted. That every step of the
platform ends in an admitted one is the model's choice (log entry 13). -/
def Obligations.PlatformStepStaysAdmitted : Prop :=
  ∀ p q : Platform, p.step = .next q →
    ∀ (j k : Nat) (e f : Encoder) (a : Nat), j ≠ k → q.encoders[j]? = some e → q.encoders[k]? = some f →
      ¬ (e.claims a = true ∧ f.claims a = true)

/-! ## The assembler -/

/-- R67: the words of the four lines; R68: ENCODE stands for START, one BYTE for each byte and END, with no NOP. -/
def Obligations.AssemblerWords : Prop :=
  (∀ idle, (Line.words .nop).map (portInput idle) = [.command 0x000#10 idle]) ∧
  (∀ idle cap, (Line.words (.start cap)).map (portInput idle) = [.command 0x100#10 cap]) ∧
  (∀ idle b, b < 256 → ∃ w, (Line.words (.byte b)).map (portInput idle) = [.command w idle] ∧ w.toNat = 0x200 + b) ∧
  (∀ idle, (Line.words .endCall).map (portInput idle) = [.command 0x300#10 idle]) ∧
  (∀ cap bytes, Line.words (.encode cap bytes) =
    Line.words (.start cap) ++ bytes.flatMap (fun b => Line.words (.byte b)) ++ Line.words .endCall)
end

