-- ==== Sys2Proof/Laws/State.lean ====
section
/-! SUPPORT. Laws/State.lean: what each state update leaves in each field, one lemma a field, so that no proof unfolds
an update. -/

namespace Sys2Proof.Machine

section
variable (s : State) (r : BitVec 3) (d : Byte) (a : Nat) (v : Byte)

@[simp] theorem setOlen_call : (setOlen s).call = s.call := rfl
@[simp] theorem setOlen_remain : (setOlen s).remain = s.remain := rfl
@[simp] theorem setOlen_current : (setOlen s).current = s.current := rfl
@[simp] theorem setOlen_wptr : (setOlen s).wptr = s.wptr := rfl
@[simp] theorem setOlen_cap : (setOlen s).cap = s.cap := rfl
@[simp] theorem setOlen_olen : (setOlen s).olen = true := rfl
@[simp] theorem setOlen_capIn : (setOlen s).capIn = s.capIn := rfl
@[simp] theorem setOlen_obuf : (setOlen s).obuf = s.obuf := rfl
@[simp] theorem setOlen_obufLen : (setOlen s).obufLen = s.obufLen := rfl
@[simp] theorem setOlen_obufPort : (setOlen s).obufPort = s.obufPort := rfl
@[simp] theorem setOlen_inputs : (setOlen s).inputs = s.inputs := rfl
@[simp] theorem setOlen_raced : (setOlen s).raced = s.raced := rfl
@[simp] theorem setOlen_symbols : (setOlen s).symbols = s.symbols := rfl
@[simp] theorem setOlen_draws : (setOlen s).draws = s.draws := rfl

@[simp] theorem clearOlen_call : (clearOlen s).call = s.call := rfl
@[simp] theorem clearOlen_remain : (clearOlen s).remain = s.remain := rfl
@[simp] theorem clearOlen_current : (clearOlen s).current = s.current := rfl
@[simp] theorem clearOlen_wptr : (clearOlen s).wptr = s.wptr := rfl
@[simp] theorem clearOlen_cap : (clearOlen s).cap = s.cap := rfl
@[simp] theorem clearOlen_olen : (clearOlen s).olen = false := rfl
@[simp] theorem clearOlen_capIn : (clearOlen s).capIn = s.capIn := rfl
@[simp] theorem clearOlen_obuf : (clearOlen s).obuf = s.obuf := rfl
@[simp] theorem clearOlen_obufLen : (clearOlen s).obufLen = s.obufLen := rfl
@[simp] theorem clearOlen_obufPort : (clearOlen s).obufPort = s.obufPort := rfl
@[simp] theorem clearOlen_inputs : (clearOlen s).inputs = s.inputs := rfl
@[simp] theorem clearOlen_raced : (clearOlen s).raced = s.raced := rfl
@[simp] theorem clearOlen_symbols : (clearOlen s).symbols = s.symbols := rfl
@[simp] theorem clearOlen_draws : (clearOlen s).draws = s.draws := rfl

@[simp] theorem raiseInvalidOutputLength_call : (raiseInvalidOutputLength s).call = .error := rfl
@[simp] theorem raiseInvalidOutputLength_remain : (raiseInvalidOutputLength s).remain = s.remain := rfl
@[simp] theorem raiseInvalidOutputLength_current : (raiseInvalidOutputLength s).current = s.current := rfl
@[simp] theorem raiseInvalidOutputLength_wptr : (raiseInvalidOutputLength s).wptr = s.wptr := rfl
@[simp] theorem raiseInvalidOutputLength_cap : (raiseInvalidOutputLength s).cap = s.cap := rfl
@[simp] theorem raiseInvalidOutputLength_olen : (raiseInvalidOutputLength s).olen = true := rfl
@[simp] theorem raiseInvalidOutputLength_capIn : (raiseInvalidOutputLength s).capIn = s.capIn := rfl
@[simp] theorem raiseInvalidOutputLength_obuf : (raiseInvalidOutputLength s).obuf = s.obuf := rfl
@[simp] theorem raiseInvalidOutputLength_obufLen : (raiseInvalidOutputLength s).obufLen = s.obufLen := rfl
@[simp] theorem raiseInvalidOutputLength_obufPort : (raiseInvalidOutputLength s).obufPort = s.obufPort := rfl
@[simp] theorem raiseInvalidOutputLength_inputs : (raiseInvalidOutputLength s).inputs = s.inputs := rfl
@[simp] theorem raiseInvalidOutputLength_raced : (raiseInvalidOutputLength s).raced = s.raced := rfl
@[simp] theorem raiseInvalidOutputLength_symbols : (raiseInvalidOutputLength s).symbols = s.symbols := rfl
@[simp] theorem raiseInvalidOutputLength_draws : (raiseInvalidOutputLength s).draws = s.draws := rfl

@[simp] theorem latchCarry_call : (latchCarry r d s).call = s.call := rfl
@[simp] theorem latchCarry_remain : (latchCarry r d s).remain = nextRemain r := rfl
@[simp] theorem latchCarry_current : (latchCarry r d s).current = nextCurrent r d := rfl
@[simp] theorem latchCarry_wptr : (latchCarry r d s).wptr = s.wptr := rfl
@[simp] theorem latchCarry_cap : (latchCarry r d s).cap = s.cap := rfl
@[simp] theorem latchCarry_olen : (latchCarry r d s).olen = s.olen := rfl
@[simp] theorem latchCarry_capIn : (latchCarry r d s).capIn = s.capIn := rfl
@[simp] theorem latchCarry_obuf : (latchCarry r d s).obuf = s.obuf := rfl
@[simp] theorem latchCarry_obufLen : (latchCarry r d s).obufLen = s.obufLen := rfl
@[simp] theorem latchCarry_obufPort : (latchCarry r d s).obufPort = s.obufPort := rfl
@[simp] theorem latchCarry_inputs : (latchCarry r d s).inputs = s.inputs := rfl
@[simp] theorem latchCarry_raced : (latchCarry r d s).raced = s.raced := rfl
@[simp] theorem latchCarry_symbols : (latchCarry r d s).symbols = s.symbols := rfl
@[simp] theorem latchCarry_draws : (latchCarry r d s).draws = s.draws := rfl

@[simp] theorem openCall_call : (openCall s).call = .busy := rfl
@[simp] theorem openCall_remain : (openCall s).remain = 5#3 := rfl
@[simp] theorem openCall_current : (openCall s).current = 0#5 := rfl
@[simp] theorem openCall_wptr : (openCall s).wptr = 0 := rfl
@[simp] theorem openCall_cap : (openCall s).cap = s.capIn := rfl
@[simp] theorem openCall_olen : (openCall s).olen = false := rfl
@[simp] theorem openCall_capIn : (openCall s).capIn = s.capIn := rfl
@[simp] theorem openCall_obuf : (openCall s).obuf = s.obuf := rfl
@[simp] theorem openCall_obufLen : (openCall s).obufLen = s.obufLen := rfl
@[simp] theorem openCall_obufPort : (openCall s).obufPort = s.obufPort := rfl
@[simp] theorem openCall_inputs : (openCall s).inputs = s.inputs := rfl
@[simp] theorem openCall_raced : (openCall s).raced = [] := rfl
@[simp] theorem openCall_symbols : (openCall s).symbols = [] := rfl
@[simp] theorem openCall_draws : (openCall s).draws = s.draws := rfl

@[simp] theorem closeCall_call : (closeCall s).call = .done := rfl
@[simp] theorem closeCall_remain : (closeCall s).remain = s.remain := rfl
@[simp] theorem closeCall_current : (closeCall s).current = s.current := rfl
@[simp] theorem closeCall_wptr : (closeCall s).wptr = s.wptr := rfl
@[simp] theorem closeCall_cap : (closeCall s).cap = s.cap := rfl
@[simp] theorem closeCall_olen : (closeCall s).olen = s.olen := rfl
@[simp] theorem closeCall_capIn : (closeCall s).capIn = s.capIn := rfl
@[simp] theorem closeCall_obuf : (closeCall s).obuf = s.obuf := rfl
@[simp] theorem closeCall_obufLen : (closeCall s).obufLen = s.obufLen := rfl
@[simp] theorem closeCall_obufPort : (closeCall s).obufPort = s.obufPort := rfl
@[simp] theorem closeCall_inputs : (closeCall s).inputs = s.inputs := rfl
@[simp] theorem closeCall_raced : (closeCall s).raced = s.raced := rfl
@[simp] theorem closeCall_symbols : (closeCall s).symbols = s.symbols := rfl
@[simp] theorem closeCall_draws : (closeCall s).draws = s.draws := rfl

@[simp] theorem resetRegisters_call : (resetRegisters s).call = .idle := rfl
@[simp] theorem resetRegisters_remain : (resetRegisters s).remain = 5#3 := rfl
@[simp] theorem resetRegisters_current : (resetRegisters s).current = 0#5 := rfl
@[simp] theorem resetRegisters_wptr : (resetRegisters s).wptr = 0 := rfl
@[simp] theorem resetRegisters_cap : (resetRegisters s).cap = 0 := rfl
@[simp] theorem resetRegisters_olen : (resetRegisters s).olen = false := rfl
@[simp] theorem resetRegisters_capIn : (resetRegisters s).capIn = s.capIn := rfl
@[simp] theorem resetRegisters_obuf : (resetRegisters s).obuf = s.obuf := rfl
@[simp] theorem resetRegisters_obufLen : (resetRegisters s).obufLen = s.obufLen := rfl
@[simp] theorem resetRegisters_obufPort : (resetRegisters s).obufPort = s.obufPort := rfl
@[simp] theorem resetRegisters_inputs : (resetRegisters s).inputs = s.inputs := rfl
@[simp] theorem resetRegisters_raced : (resetRegisters s).raced = [] := rfl
@[simp] theorem resetRegisters_symbols : (resetRegisters s).symbols = [] := rfl
@[simp] theorem resetRegisters_draws : (resetRegisters s).draws = s.draws := rfl

@[simp] theorem quietPort_call : (quietPort s).call = s.call := rfl
@[simp] theorem quietPort_remain : (quietPort s).remain = s.remain := rfl
@[simp] theorem quietPort_current : (quietPort s).current = s.current := rfl
@[simp] theorem quietPort_wptr : (quietPort s).wptr = s.wptr := rfl
@[simp] theorem quietPort_cap : (quietPort s).cap = s.cap := rfl
@[simp] theorem quietPort_olen : (quietPort s).olen = s.olen := rfl
@[simp] theorem quietPort_capIn : (quietPort s).capIn = s.capIn := rfl
@[simp] theorem quietPort_obuf : (quietPort s).obuf = s.obuf := rfl
@[simp] theorem quietPort_obufLen : (quietPort s).obufLen = s.obufLen := rfl
@[simp] theorem quietPort_obufPort : (quietPort s).obufPort = [] := rfl
@[simp] theorem quietPort_inputs : (quietPort s).inputs = s.inputs := rfl
@[simp] theorem quietPort_raced : (quietPort s).raced = s.raced := rfl
@[simp] theorem quietPort_symbols : (quietPort s).symbols = s.symbols := rfl
@[simp] theorem quietPort_draws : (quietPort s).draws = s.draws := rfl

/-! A symbol write (R41): all but OBUF, the write port and the race fields stands, and the symbol is
remembered. -/

@[simp] theorem obufWrite_call : (obufWrite a v s).call = s.call := by
  unfold obufWrite; split <;> rfl
@[simp] theorem obufWrite_remain : (obufWrite a v s).remain = s.remain := by
  unfold obufWrite; split <;> rfl
@[simp] theorem obufWrite_current : (obufWrite a v s).current = s.current := by
  unfold obufWrite; split <;> rfl
@[simp] theorem obufWrite_wptr : (obufWrite a v s).wptr = s.wptr := by
  unfold obufWrite; split <;> rfl
@[simp] theorem obufWrite_cap : (obufWrite a v s).cap = s.cap := by
  unfold obufWrite; split <;> rfl
@[simp] theorem obufWrite_olen : (obufWrite a v s).olen = s.olen := by
  unfold obufWrite; split <;> rfl
@[simp] theorem obufWrite_capIn : (obufWrite a v s).capIn = s.capIn := by
  unfold obufWrite; split <;> rfl
@[simp] theorem obufWrite_obufLen : (obufWrite a v s).obufLen = s.obufLen := by
  unfold obufWrite; split <;> rfl
@[simp] theorem obufWrite_obufPort : (obufWrite a v s).obufPort = s.obufPort ++ [(a, v)] := by
  unfold obufWrite; split <;> rfl
@[simp] theorem obufWrite_symbols : (obufWrite a v s).symbols = s.symbols ++ [v] := by
  unfold obufWrite; split <;> rfl
@[simp] theorem obufWrite_inputs : (obufWrite a v s).inputs = s.inputs := by
  unfold obufWrite; split <;> rfl

end

end Sys2Proof.Machine
end

