-- ==== Sys2Proof/Laws/Datapath.lean ====
section
/-! SUPPORT. Laws/Datapath.lean: what the datapath functions compute, as arithmetic on naturals (40_datapath.md R80 to
R87), and the stream of 42_encode_contract.md R132. -/

namespace Sys2Proof.Machine

/-- A concatenation as a number (R7: the first part is the high one). -/
theorem append_toNat {n m : Nat} (x : BitVec n) (y : BitVec m) : (x ++ y).toNat = x.toNat * 2 ^ m + y.toNat := by
  rw [BitVec.toNat_append, ← Nat.shiftLeft_add_eq_or_of_lt y.isLt, Nat.shiftLeft_eq]

/-- R80. -/
theorem mask_eq (k : Fin 9) : mask k = 2 ^ k.val - 1 := by
  revert k; decide

theorem and_mask (x : Nat) (k : Fin 9) : x &&& mask k = x % 2 ^ k.val := by
  rw [mask_eq, Nat.and_two_pow_sub_one_eq_mod]

/-- R84: the mask removes nothing. -/
theorem extracted_eq (r : BitVec 3) (d : Byte) : extracted r d = d.toNat / 2 ^ r.toNat := by
  unfold extracted
  rw [and_mask, Nat.shiftRight_eq_div_pow]
  apply Nat.mod_eq_of_lt
  have hr : r.toNat < 8 := r.isLt
  have hd : d.toNat < 2 ^ (8 - r.toNat) * 2 ^ r.toNat := by
    rw [← Nat.pow_add, show 8 - r.toNat + r.toNat = 8 by omega]; exact d.isLt
  exact (Nat.div_lt_iff_lt_mul (by positivity)).mpr hd

/-- R82: the first index is the carry below the byte's low `r` bits. -/
theorem idx1_toNat {r : BitVec 3} {c : BitVec 5} (d : Byte) (hr : r.toNat ≤ 5) (hc : c.toNat < 2 ^ (5 - r.toNat)) :
    (idx1 r c d).toNat = c.toNat + 2 ^ (5 - r.toNat) * (d.toNat % 2 ^ r.toNat) := by
  unfold idx1
  rw [and_mask, ← Nat.shiftLeft_add_eq_or_of_lt hc, Nat.shiftLeft_eq]
  have hm : d.toNat % 2 ^ r.toNat < 2 ^ r.toNat := Nat.mod_lt _ (by positivity)
  have h5 : 2 ^ (5 - r.toNat) * 2 ^ r.toNat = 32 := by
    rw [← Nat.pow_add, show 5 - r.toNat + r.toNat = 5 by omega]
  have : 2 ^ (5 - r.toNat) * (d.toNat % 2 ^ r.toNat + 1) ≤ 32 := by
    rw [← h5]; exact Nat.mul_le_mul_left _ hm
  show (d.toNat % 2 ^ r.toNat * 2 ^ (5 - r.toNat) + c.toNat) % 2 ^ 5 = _
  rw [Nat.mod_eq_of_lt (by rw [Nat.mul_add] at this; rw [Nat.mul_comm]; omega), Nat.mul_comm, Nat.add_comm]

/-- R85: a second symbol is there exactly when `r <= 3`. -/
theorem second_iff (r : BitVec 3) : second r = true ↔ r.toNat ≤ 3 := by
  revert r; decide

/-- R85: the second index is the next five bits of the byte. -/
theorem idx2_toNat (r : BitVec 3) (d : Byte) : (idx2 r d).toNat = d.toNat / 2 ^ r.toNat % 32 := by
  unfold idx2
  rw [and_mask, extracted_eq]
  show _ % 2 ^ 5 % 2 ^ 5 = _
  simp

/-- R86, one symbol: the carry is the rest of the byte. -/
theorem nextCurrent_toNat_one {r : BitVec 3} (d : Byte) (h : second r = false) :
    (nextCurrent r d).toNat = d.toNat / 2 ^ r.toNat := by
  have h3 : ¬ r.toNat ≤ 3 := fun hr => by simp [(second_iff r).mpr hr] at h
  unfold nextCurrent leftover
  rw [h, extracted_eq]
  have hlt : d.toNat / 2 ^ r.toNat < 32 := by
    refine (Nat.div_lt_iff_lt_mul (by positivity)).mpr ?_
    have h16 : 2 ^ 4 ≤ 2 ^ r.toNat := Nat.pow_le_pow_right (by decide) (by omega)
    have := d.isLt
    omega
  exact Nat.mod_eq_of_lt hlt

/-- R86, two symbols: the carry is what lies above the second symbol. -/
theorem nextCurrent_toNat_two {r : BitVec 3} (d : Byte) (h : second r = true) :
    (nextCurrent r d).toNat = d.toNat / 2 ^ (r.toNat + 5) := by
  unfold nextCurrent leftover
  rw [if_pos h, extracted_eq, Nat.shiftRight_eq_div_pow, Nat.div_div_eq_div_mul, ← Nat.pow_add]
  refine Nat.mod_eq_of_lt ((Nat.div_lt_iff_lt_mul (by positivity)).mpr ?_)
  have h32 : 2 ^ 5 ≤ 2 ^ (r.toNat + 5) := Nat.pow_le_pow_right (by decide) (by omega)
  have := d.isLt
  omega

/-- R86: the next `remain`. -/
theorem nextRemain_toNat {r : BitVec 3} (h1 : 1 ≤ r.toNat) (h5 : r.toNat ≤ 5) :
    (nextRemain r).toNat = if r.toNat ≤ 3 then 2 + r.toNat else r.toNat - 3 := by
  have hr : ∀ q : BitVec 3, 1 ≤ q.toNat → q.toNat ≤ 5 →
      (nextRemain q).toNat = if q.toNat ≤ 3 then 2 + q.toNat else q.toNat - 3 := by decide
  exact hr r h1 h5

/-- R87: the mask removes nothing from the register. -/
@[simp] theorem tailIndex_eq (c : BitVec 5) : tailIndex c = c := by
  unfold tailIndex
  rw [and_mask]
  apply BitVec.eq_of_toNat_eq
  have := c.isLt
  show c.toNat % 2 ^ 5 % 2 ^ 5 = _
  omega

theorem tailPending_iff (r : BitVec 3) : tailPending r = true ↔ r ≠ 5#3 := by
  revert r; decide

/-! The phase law's numbers (R140) and the stream (R132). -/

/-- `remain` is fixed by how many stream bits lie beyond the last whole symbol. -/
theorem phaseRemain_spec (n : Nat) : 1 ≤ phaseRemain n ∧ phaseRemain n ≤ 5 ∧ 8 * n % 5 + phaseRemain n = 5 := by
  have h : n % 5 = 0 ∨ n % 5 = 1 ∨ n % 5 = 2 ∨ n % 5 = 3 ∨ n % 5 = 4 := by omega
  rcases h with h | h | h | h | h <;> simp only [phaseRemain, h] <;> omega

theorem symbolIndex_testBit (bs : List Byte) (k j : Nat) :
    (symbolIndex bs k).testBit j = (decide (j < 5) && streamBit bs (5 * k + j)) := by
  have key : ∀ b0 b1 b2 b3 b4 : Bool,
      ([b0.toNat <<< 0, b1.toNat <<< 1, b2.toNat <<< 2, b3.toNat <<< 3, b4.toNat <<< 4].sum < 32) ∧
      ∀ i : Fin 5, [b0.toNat <<< 0, b1.toNat <<< 1, b2.toNat <<< 2, b3.toNat <<< 3, b4.toNat <<< 4].sum.testBit i =
        [b0, b1, b2, b3, b4][i] := by decide
  obtain ⟨hlt, hbit⟩ := key (streamBit bs (5 * k + 0)) (streamBit bs (5 * k + 1)) (streamBit bs (5 * k + 2))
    (streamBit bs (5 * k + 3)) (streamBit bs (5 * k + 4))
  have hs : symbolIndex bs k = [(streamBit bs (5 * k + 0)).toNat <<< 0, (streamBit bs (5 * k + 1)).toNat <<< 1,
    (streamBit bs (5 * k + 2)).toNat <<< 2, (streamBit bs (5 * k + 3)).toNat <<< 3,
    (streamBit bs (5 * k + 4)).toNat <<< 4].sum := rfl
  rw [hs]
  by_cases hj : j < 5
  · have := hbit ⟨j, hj⟩
    rw [this]
    interval_cases j <;> rfl
  · rw [Nat.testBit_lt_two_pow (lt_of_lt_of_le hlt (Nat.pow_le_pow_right (n := 2) (by decide) (Nat.not_lt.mp hj)))]
    simp [hj]

theorem symbolIndex_lt (bs : List Byte) (k : Nat) : symbolIndex bs k < 2 ^ 5 :=
  Nat.lt_pow_two_of_testBit _ fun j hj => by simp [symbolIndex_testBit, Nat.not_lt.mpr hj]

theorem streamBit_append_lt {bs : List Byte} (d : Byte) {p : Nat} (h : p < 8 * bs.length) :
    streamBit (bs ++ [d]) p = streamBit bs p := by
  unfold streamBit
  rw [List.getElem?_append_left (by omega)]

theorem streamBit_append_ge {bs : List Byte} (d : Byte) {p : Nat} (h : 8 * bs.length ≤ p) :
    streamBit (bs ++ [d]) p = d.getLsbD (p - 8 * bs.length) := by
  unfold streamBit
  rw [List.getElem?_append_right (by omega)]
  by_cases h8 : p / 8 - bs.length = 0
  · rw [h8]
    show d.getLsbD (p % 8) = _
    congr 1; omega
  · rw [List.getElem?_eq_none (by simp; omega)]
    exact (BitVec.getLsbD_of_ge _ _ (by omega)).symm

/-- The symbols already complete do not change when a byte is added. -/
theorem symbolIndex_append {bs : List Byte} (d : Byte) {k : Nat} (h : 5 * k + 5 ≤ 8 * bs.length) :
    symbolIndex (bs ++ [d]) k = symbolIndex bs k := by
  apply Nat.eq_of_testBit_eq
  intro j
  rw [symbolIndex_testBit, symbolIndex_testBit]
  by_cases hj : j < 5
  · rw [streamBit_append_lt d (by omega)]
  · simp [hj]

theorem symbolCode_append {bs : List Byte} (d : Byte) {k : Nat} (h : 5 * k + 5 ≤ 8 * bs.length) :
    symbolCode (bs ++ [d]) k = symbolCode bs k := by
  rw [symbolCode, symbolCode, symbolIndex_append d h]

end Sys2Proof.Machine
end

