-- ==== Sys2Proof/Laws/Memory.lean ====
section
/-! SUPPORT. Laws/Memory.lean: read after write, and every memory operation keeps the canonical form. -/

namespace Sys2Proof.Machine

@[simp] theorem Memory.read_nil (a : Nat) : Memory.read [] a = none := rfl

theorem Memory.read_cons (b : Nat) (w : Byte) (m : Memory) (a : Nat) :
    Memory.read ((b, w) :: m) a = if b = a then some w else Memory.read m a := rfl

/-- A read after a write: the value written at its address, and every other address as before. -/
theorem Memory.read_write (m : Memory) (a x : Nat) (v : Byte) :
    (m.write a v).read x = if x = a then some v else m.read x := by
  induction m with
  | nil => simp [Memory.write, Memory.read_cons, eq_comm]
  | cons c m ih =>
    obtain ⟨b, w⟩ := c
    unfold Memory.write
    split
    · simp only [Memory.read_cons, eq_comm (a := a)]
    · split
      · rename_i hab
        subst hab
        simp only [Memory.read_cons, eq_comm (a := a)]
        split <;> rfl
      · simp only [Memory.read_cons, ih]
        split
        · rw [if_neg (by omega)]
        · rfl

@[simp] theorem Memory.read_write_self (m : Memory) (a : Nat) (v : Byte) : (m.write a v).read a = some v := by
  simp [Memory.read_write]

theorem Memory.read_write_of_ne (m : Memory) {a x : Nat} (v : Byte) (h : x ≠ a) :
    (m.write a v).read x = m.read x := by
  simp [Memory.read_write, h]

theorem Memory.mem_write {m : Memory} {a : Nat} {v : Byte} {c : Host.Cell} (h : c ∈ m.write a v) :
    c = (a, v) ∨ c ∈ m := by
  induction m with
  | nil => simpa [Memory.write] using h
  | cons e m ih =>
    obtain ⟨b, w⟩ := e
    unfold Memory.write at h
    split at h
    · simpa using h
    · split at h
      · rcases List.mem_cons.mp h with h | h
        · exact .inl h
        · exact .inr (List.mem_cons_of_mem _ h)
      · rcases List.mem_cons.mp h with h | h
        · exact .inr (by simp [h])
        · exact (ih h).imp_right (List.mem_cons_of_mem _)

/-- A write keeps the canonical form. -/
theorem Memory.write_wf {m : Memory} (h : m.wf) (a : Nat) (v : Byte) : (m.write a v).wf := by
  induction m with
  | nil => simp [Memory.write, Memory.wf]
  | cons e m ih =>
    obtain ⟨b, w⟩ := e
    obtain ⟨hb, hm⟩ := List.pairwise_cons.mp h
    unfold Memory.write
    split
    · rename_i hab
      refine List.pairwise_cons.mpr ⟨fun c hc => ?_, h⟩
      rcases List.mem_cons.mp hc with rfl | hc
      · exact hab
      · exact lt_trans hab (hb c hc)
    · split
      · subst_vars; exact List.pairwise_cons.mpr ⟨hb, hm⟩
      · refine List.pairwise_cons.mpr ⟨fun c hc => ?_, ih hm⟩
        rcases Memory.mem_write hc with rfl | hc
        · show b < a; omega
        · exact hb c hc

/-- An address no entry has reads as nothing. -/
theorem Memory.read_eq_none {m : Memory} {a : Nat} (h : ∀ c ∈ m, c.1 ≠ a) : m.read a = none := by
  induction m with
  | nil => rfl
  | cons c m ih =>
    rw [show m = m from rfl, Memory.read, if_neg (h c (by simp))]
    exact ih fun e he => h e (List.mem_cons_of_mem _ he)

theorem Memory.read_append (m n : Memory) (a : Nat) : Memory.read (m ++ n) a = (m.read a).or (Memory.read n a) := by
  induction m with
  | nil => simp
  | cons c m ih =>
    obtain ⟨b, w⟩ := c
    simp only [List.cons_append, Memory.read_cons, ih]
    split <;> simp

theorem Memory.read_filter (m : Memory) (p : Nat → Bool) (a : Nat) :
    Memory.read (m.filter (fun c => p c.1)) a = if p a then m.read a else none := by
  induction m with
  | nil => simp
  | cons c m ih =>
    obtain ⟨b, w⟩ := c
    by_cases hb : p b
    · simp only [List.filter_cons, hb, if_true, Memory.read_cons, ih]
      by_cases hba : b = a
      · subst hba; simp [hb]
      · simp [hba]
    · simp only [List.filter_cons, hb, Bool.false_eq_true, if_false, ih, Memory.read_cons]
      by_cases hba : b = a
      · subst hba; simp [hb]
      · simp [hba]

/-- The view from a base reads offset `a` as address `base + a`. -/
theorem Memory.read_viewFrom (base : Nat) (m : Memory) (a : Nat) : (m.viewFrom base).read a = m.read (base + a) := by
  unfold Memory.viewFrom
  induction m with
  | nil => rfl
  | cons c m ih =>
    obtain ⟨b, w⟩ := c
    by_cases hb : base ≤ b
    · simp only [List.filter_cons, hb, decide_true, if_true, List.map_cons, Memory.read_cons, ih]
      by_cases h : b = base + a
      · simp [h]
      · rw [if_neg h, if_neg (by omega)]
    · simp only [List.filter_cons, hb, decide_false, Bool.false_eq_true, if_false, ih, Memory.read_cons]
      rw [if_neg (by omega)]

theorem Memory.read_shift (m : Memory) (base a : Nat) :
    Memory.read (m.map (fun c => (c.1 + base, c.2))) a = if base ≤ a then m.read (a - base) else none := by
  induction m with
  | nil => simp
  | cons c m ih =>
    obtain ⟨b, w⟩ := c
    simp only [List.map_cons, Memory.read_cons, ih]
    by_cases h : base ≤ a
    · simp only [h, if_true]
      by_cases hb : b + base = a
      · rw [if_pos hb, if_pos (by omega)]
      · rw [if_neg hb, if_neg (by omega)]
    · simp only [h, if_false]
      rw [if_neg (by omega)]

/-- The memory with a view put back reads below the base as before and from the base on as the view. -/
theorem Memory.read_withView (base : Nat) (m view : Memory) (a : Nat) :
    (m.withView base view).read a = if a < base then m.read a else view.read (a - base) := by
  have hf := Memory.read_filter m (fun x => decide (x < base)) a
  unfold Memory.withView
  rw [Memory.read_append, hf, Memory.read_shift]
  by_cases h : a < base
  · simp [h, Nat.not_le.mpr h]
  · simp [h, Nat.not_lt.mp h]

theorem Memory.viewFrom_wf {m : Memory} (h : m.wf) (base : Nat) : (m.viewFrom base).wf := by
  unfold Memory.viewFrom Memory.wf
  rw [List.pairwise_map]
  refine (h.filter _).imp_of_mem ?_
  intro x y hx hy hxy
  have := (List.mem_filter.mp hx).2
  simp at this
  show x.1 - base < y.1 - base
  omega

theorem Memory.withView_wf {m view : Memory} (h : m.wf) (hv : view.wf) (base : Nat) : (m.withView base view).wf := by
  unfold Memory.withView Memory.wf
  refine List.pairwise_append.mpr ⟨h.filter _, ?_, ?_⟩
  · rw [List.pairwise_map]
    refine hv.imp ?_
    intro x y hxy
    show x.1 + base < y.1 + base
    omega
  · intro x hx y hy
    have h1 := (List.mem_filter.mp hx).2
    obtain ⟨z, -, rfl⟩ := List.mem_map.mp hy
    simp at h1
    show x.1 < z.1 + base
    omega

end Sys2Proof.Machine
end

