-- ==== Sys2Proof/Laws/Ops.lean ====
section
/-! SUPPORT. Laws/Ops.lean: what each shared operation can do, once: the symbol write (40_datapath.md R90), a run of
them (`State.Wrote`), and the guard every command passes. -/

namespace Sys2Proof.Machine

/-! The admitted states. -/

theorem State.carryLegal_iff (s : State) : s.carryLegal = true ↔
    1 ≤ s.remain.toNat ∧ s.remain.toNat ≤ 5 ∧ s.current.toNat < 2 ^ (5 - s.remain.toNat) := by
  simp [State.carryLegal]

theorem State.capacityTrue_iff (s : State) : s.capacityTrue = true ↔ (s.call = .busy → s.bufferHolds s.cap = true) := by
  simp only [State.capacityTrue, decide_eq_true_eq]

/-- In an admitted state the guard lets the command through. -/
theorem onAdmitted_of {s : State} (h : s.Admitted) (k : Host.Outcome State Fault Refusal) : onAdmitted s k = k := by
  simp [onAdmitted, h.1, h.2]

/-- The guard answers a next state only where the state is admitted, and then it is the command's. -/
theorem onAdmitted_next {s t : State} {k : Host.Outcome State Fault Refusal} (h : onAdmitted s k = .next t) :
    s.Admitted ∧ k = .next t := by
  unfold onAdmitted at h
  split at h
  · split at h
    · exact ⟨⟨‹_›, ‹_›⟩, h⟩
    · cases h
  · cases h

theorem State.Inv.admitted {s : State} (h : s.Inv) : s.Admitted := ⟨h.carry, h.capacity⟩

/-! The cells of a run of symbols. -/

@[simp] theorem symbolCells_nil (a : Nat) : symbolCells a [] = [] := rfl

theorem symbolCells_append (a : Nat) (is js : List SymbolIndex) :
    symbolCells a (is ++ js) = symbolCells a is ++ symbolCells (a + is.length) js := by
  induction is generalizing a with
  | nil => simp
  | cons i is ih => simp [symbolCells, ih, Nat.add_assoc, Nat.add_comm 1]

@[simp] theorem symbolCells_length (a : Nat) (is : List SymbolIndex) : (symbolCells a is).length = is.length := by
  induction is generalizing a with
  | nil => rfl
  | cons i is ih => simp [symbolCells, ih]

theorem symbolCells_addr {a : Nat} {is : List SymbolIndex} {c : Host.Cell} (h : c ∈ symbolCells a is) :
    a ≤ c.1 ∧ c.1 < a + is.length := by
  induction is generalizing a with
  | nil => simp at h
  | cons i is ih =>
    rcases List.mem_cons.mp h with rfl | h
    · simp
    · have := ih h
      simp only [List.length_cons]
      omega

theorem symbolCells_data {a : Nat} {is : List SymbolIndex} {c : Host.Cell} (h : c ∈ symbolCells a is) :
    ∃ i, c.2 = alphabet i := by
  induction is generalizing a with
  | nil => simp at h
  | cons i is ih =>
    rcases List.mem_cons.mp h with rfl | h
    · exact ⟨i, rfl⟩
    · exact ih h

theorem symbolCells_map_fst (a : Nat) (is : List SymbolIndex) :
    (symbolCells a is).map Prod.fst = List.range' a is.length := by
  induction is generalizing a with
  | nil => rfl
  | cons i is ih => simp [symbolCells, ih, List.range'_succ]

/-- Writing no symbol leaves the state. -/
theorem State.Wrote.nil (s : State) : s.Wrote [] s := by
  have hf : s.raced.filter (fun a => decide (a < s.wptr ∨ s.wptr + ([] : List SymbolIndex).length ≤ a)) = s.raced := by
    rw [List.filter_eq_self]
    intro a _
    simp only [List.length_nil, decide_eq_true_eq]
    omega
  exact ⟨s.obuf, s.draws, by rw [hf]; simp, by simp, by simp, by simp⟩

/-! The symbol write. -/

theorem emitSymbol_full (i : SymbolIndex) {s : State} (h : s.cap ≤ s.wptr) :
    emitSymbol i s = .raised (raiseInvalidOutputLength s) := if_pos h

/-- The block's write keeps the canonical form. -/
theorem obufWrite_wf {s : State} (h : s.obuf.wf) (a : Nat) (v : Byte) : (obufWrite a v s).obuf.wf := by
  by_cases hr : a ∈ s.raced
  · simp only [obufWrite, if_pos hr]
    split
    · exact h
    · exact Memory.write_wf h _ _
  · simp only [obufWrite, if_neg hr]
    exact Memory.write_wf h _ _

/-- Where there is room, EmitSymbol writes exactly one symbol. -/
theorem emitSymbol_room (i : SymbolIndex) {s : State} (h : s.wptr < s.cap) :
    ∃ t, emitSymbol i s = .wrote t ∧ s.Wrote [i] t ∧ (s.obuf.wf → t.obuf.wf) := by
  have hf : ∀ a, decide (a < s.wptr ∨ s.wptr + [i].length ≤ a) = decide (a ≠ s.wptr) := fun a => by
    simp only [List.length_singleton, decide_eq_decide]
    omega
  refine ⟨_, if_neg (Nat.not_le.mpr h), ⟨(obufWrite s.wptr (alphabet i) s).obuf,
    (obufWrite s.wptr (alphabet i) s).draws, ?_, ?_, ?_, ?_⟩, ?_⟩
  · simp only [hf]
    by_cases hr : s.wptr ∈ s.raced
    · simp only [obufWrite, if_pos hr]
      rfl
    · have : s.raced.filter (fun a => decide (a ≠ s.wptr)) = s.raced := by
        rw [List.filter_eq_self]
        exact fun a ha => decide_eq_true fun e => hr (e ▸ ha)
      simp only [obufWrite, if_neg hr, this]
      rfl
  · simp only [symbolCells, List.mem_singleton, forall_eq]
    by_cases hr : s.wptr ∈ s.raced
    · simp only [obufWrite, if_pos hr]
      split
      · exact .inr ⟨hr, rfl⟩
      · exact .inl (by simp)
    · simp only [obufWrite, if_neg hr]
      exact .inl (by simp)
  · intro a ha
    simp only [List.length_singleton] at ha
    by_cases hr : s.wptr ∈ s.raced
    · simp only [obufWrite, if_pos hr]
      split
      · rfl
      · exact Memory.read_write_of_ne _ _ (by omega)
    · simp only [obufWrite, if_neg hr]
      exact Memory.read_write_of_ne _ _ (by omega)
  · intro hc
    have hr : s.wptr ∉ s.raced := hc (s.wptr, alphabet i) (by simp [symbolCells])
    simp only [obufWrite, if_neg hr]
  · exact fun hm => obufWrite_wf hm _ _

/-- One run of symbols after another is one run. -/
theorem State.Wrote.append {s t u : State} {is js : List SymbolIndex} (h1 : s.Wrote is t) (h2 : t.Wrote js u) :
    s.Wrote (is ++ js) u := by
  obtain ⟨m, n, rfl, hc, ho, hn⟩ := h1
  obtain ⟨m', n', rfl, hc', ho', hn'⟩ := h2
  simp only at hc' ho' hn'
  refine ⟨m', n', ?_, ?_, ?_, ?_⟩
  · congr 1
    · simp only [List.length_append, Nat.add_assoc]
    · simp only [symbolCells_append, List.append_assoc]
    · simp only [List.filter_filter, List.length_append]
      apply List.filter_congr
      intro a _
      rw [← Bool.decide_and, decide_eq_decide]
      omega
    · simp only [List.map_append, List.append_assoc]
  · intro c hcm
    rw [symbolCells_append] at hcm
    rcases List.mem_append.mp hcm with h | h
    · have ha := symbolCells_addr h
      rw [ho' c.1 (by omega)]
      exact hc c h
    · have ha := symbolCells_addr h
      rcases hc' c h with e | ⟨hr, e⟩
      · exact .inl e
      · exact .inr ⟨(List.mem_filter.mp hr).1, e.trans (ho c.1 (by omega))⟩
  · intro a ha
    simp only [List.length_append] at ha
    rw [ho' a (by omega), ho a (by omega)]
  · intro hr
    rw [symbolCells_append] at hr
    rw [hn' fun c hcm hmem => hr c (List.mem_append_right _ hcm) (List.mem_filter.mp hmem).1,
      hn fun c hcm => hr c (List.mem_append_left _ hcm)]

/-! What a run of symbols leaves: the registers and the rest, one lemma a field. -/

section
variable {s t : State} {is : List SymbolIndex}

theorem State.Wrote.call (h : s.Wrote is t) : t.call = s.call := by obtain ⟨m, n, rfl, -⟩ := h; rfl
theorem State.Wrote.remain (h : s.Wrote is t) : t.remain = s.remain := by obtain ⟨m, n, rfl, -⟩ := h; rfl
theorem State.Wrote.current (h : s.Wrote is t) : t.current = s.current := by obtain ⟨m, n, rfl, -⟩ := h; rfl
theorem State.Wrote.wptr (h : s.Wrote is t) : t.wptr = s.wptr + is.length := by obtain ⟨m, n, rfl, -⟩ := h; rfl
theorem State.Wrote.cap (h : s.Wrote is t) : t.cap = s.cap := by obtain ⟨m, n, rfl, -⟩ := h; rfl
theorem State.Wrote.olen (h : s.Wrote is t) : t.olen = s.olen := by obtain ⟨m, n, rfl, -⟩ := h; rfl
theorem State.Wrote.capIn (h : s.Wrote is t) : t.capIn = s.capIn := by obtain ⟨m, n, rfl, -⟩ := h; rfl
theorem State.Wrote.obufLen (h : s.Wrote is t) : t.obufLen = s.obufLen := by obtain ⟨m, n, rfl, -⟩ := h; rfl
theorem State.Wrote.inputs (h : s.Wrote is t) : t.inputs = s.inputs := by obtain ⟨m, n, rfl, -⟩ := h; rfl
theorem State.Wrote.obufPort (h : s.Wrote is t) : t.obufPort = s.obufPort ++ symbolCells s.wptr is := by
  obtain ⟨m, n, rfl, -⟩ := h; rfl
theorem State.Wrote.raced (h : s.Wrote is t) :
    t.raced = s.raced.filter (fun a => decide (a < s.wptr ∨ s.wptr + is.length ≤ a)) := by
  obtain ⟨m, n, rfl, -⟩ := h; rfl
theorem State.Wrote.symbols (h : s.Wrote is t) : t.symbols = s.symbols ++ is.map alphabet := by
  obtain ⟨m, n, rfl, -⟩ := h; rfl
theorem State.Wrote.read_cell (h : s.Wrote is t) {c : Host.Cell} (hc : c ∈ symbolCells s.wptr is) :
    t.obuf.read c.1 = some c.2 ∨ (c.1 ∈ s.raced ∧ t.obuf.read c.1 = s.obuf.read c.1) := by
  obtain ⟨m, n, rfl, h, -⟩ := h; exact h c hc
theorem State.Wrote.read_other (h : s.Wrote is t) {a : Nat} (ha : a < s.wptr ∨ s.wptr + is.length ≤ a) :
    t.obuf.read a = s.obuf.read a := by
  obtain ⟨m, n, rfl, -, h, -⟩ := h; exact h a ha

end

end Sys2Proof.Machine
end

