-- ==== Sys2Proof/Laws/Commands.lean ====
section
/-! SUPPORT. Laws/Commands.lean: what the bodies of BYTE and END can do (41_commands.md R102, R103), and when a command
answers a next state. -/

namespace Sys2Proof.Machine

theorem consumeByte_full (d : Byte) {s : State} (h : s.cap ≤ s.wptr) :
    consumeByte d s = raiseInvalidOutputLength s := by
  simp only [consumeByte, emitSymbol_full _ h]

theorem consumeByte_one (d : Byte) {s : State} (h : s.wptr < s.cap) (h2 : second s.remain = false) :
    ∃ u, s.Wrote [idx1 s.remain s.current d] u ∧ (s.obuf.wf → u.obuf.wf) ∧
      consumeByte d s = latchCarry s.remain d u := by
  obtain ⟨u, he, hw, hm⟩ := emitSymbol_room (idx1 s.remain s.current d) h
  exact ⟨u, hw, hm, by simp [consumeByte, he, h2]⟩

theorem consumeByte_two_full (d : Byte) {s : State} (h : s.wptr + 1 = s.cap) (h2 : second s.remain = true) :
    ∃ u, s.Wrote [idx1 s.remain s.current d] u ∧ (s.obuf.wf → u.obuf.wf) ∧
      consumeByte d s = raiseInvalidOutputLength u := by
  obtain ⟨u, he, hw, hm⟩ := emitSymbol_room (idx1 s.remain s.current d) (s := s) (by omega)
  refine ⟨u, hw, hm, ?_⟩
  have hf : u.cap ≤ u.wptr := by rw [hw.cap, hw.wptr]; simp; omega
  simp [consumeByte, he, h2, emitSymbol_full _ hf]

theorem consumeByte_two (d : Byte) {s : State} (h : s.wptr + 1 < s.cap) (h2 : second s.remain = true) :
    ∃ u, s.Wrote [idx1 s.remain s.current d, idx2 s.remain d] u ∧ (s.obuf.wf → u.obuf.wf) ∧
      consumeByte d s = latchCarry s.remain d u := by
  obtain ⟨u, he, hw, hm⟩ := emitSymbol_room (idx1 s.remain s.current d) (s := s) (by omega)
  obtain ⟨v, he', hw', hm'⟩ := emitSymbol_room (idx2 s.remain d) (s := u) (by rw [hw.cap, hw.wptr]; simp; omega)
  exact ⟨v, hw.append hw', hm' ∘ hm, by simp [consumeByte, he, h2, he']⟩

/-- Everything BYTE can do in an open call: write its symbols and take the carry, or write none or one and raise. -/
theorem consumeByte_cases (d : Byte) (s : State) :
    (∃ is u, s.Wrote is u ∧ (s.obuf.wf → u.obuf.wf) ∧ 1 ≤ is.length ∧ is.length ≤ 2 ∧ s.wptr + is.length ≤ s.cap ∧
      consumeByte d s = latchCarry s.remain d u) ∨
    (∃ is u, s.Wrote is u ∧ (s.obuf.wf → u.obuf.wf) ∧ is.length ≤ 1 ∧ s.cap ≤ s.wptr + is.length ∧
      (is = [] ∨ s.wptr + is.length = s.cap) ∧ consumeByte d s = raiseInvalidOutputLength u) := by
  rcases Nat.lt_or_ge s.wptr s.cap with h | h
  · rcases Bool.eq_false_or_eq_true (second s.remain) with h2 | h2
    · rcases Nat.lt_or_ge (s.wptr + 1) s.cap with h' | h'
      · obtain ⟨u, hw, hm, e⟩ := consumeByte_two d h' h2
        exact .inl ⟨_, u, hw, hm, by simp, by simp, by simp; omega, e⟩
      · obtain ⟨u, hw, hm, e⟩ := consumeByte_two_full d (by omega) h2
        exact .inr ⟨_, u, hw, hm, by simp, by simp; omega, .inr (by simp; omega), e⟩
    · obtain ⟨u, hw, hm, e⟩ := consumeByte_one d h h2
      exact .inl ⟨_, u, hw, hm, by simp, by simp, by simp; omega, e⟩
  · exact .inr ⟨[], s, .nil s, id, by simp, by simpa using h, .inl rfl, consumeByte_full d h⟩

theorem flushTail_none {s : State} (h : s.remain = 5#3) : flushTail s = closeCall s := by
  have : tailPending s.remain = false := by rw [h]; rfl
  simp [flushTail, this]

theorem flushTail_room {s : State} (hr : s.remain ≠ 5#3) (h : s.wptr < s.cap) :
    ∃ u, s.Wrote [s.current] u ∧ (s.obuf.wf → u.obuf.wf) ∧ flushTail s = closeCall u := by
  obtain ⟨u, he, hw, hm⟩ := emitSymbol_room (tailIndex s.current) h
  rw [tailIndex_eq] at hw
  exact ⟨u, hw, hm, by simp only [flushTail, (tailPending_iff _).mpr hr, he, if_true]⟩

theorem flushTail_full {s : State} (hr : s.remain ≠ 5#3) (h : s.cap ≤ s.wptr) :
    flushTail s = raiseInvalidOutputLength s := by
  simp only [flushTail, (tailPending_iff _).mpr hr, emitSymbol_full _ h, if_true]

/-! When a command answers a next state, and which. -/

theorem execNop_next {s t : State} (h : execNop s = .next t) : s.Admitted ∧ t = s := by
  obtain ⟨ha, e⟩ := onAdmitted_next h
  cases e
  exact ⟨ha, rfl⟩

theorem execStart_next {s t : State} (h : execStart s = .next t) :
    s.Admitted ∧ s.bufferHolds s.capIn = true ∧ t = openCall s := by
  obtain ⟨ha, e⟩ := onAdmitted_next h
  split at e
  · cases e; exact ⟨ha, ‹_›, rfl⟩
  · cases e

theorem execByte_next {d : Byte} {s t : State} (h : execByte d s = .next t) :
    s.Admitted ∧ ((s.call = .busy ∧ t = consumeByte d s) ∨ (s.call ≠ .busy ∧ t = s)) := by
  obtain ⟨ha, e⟩ := onAdmitted_next h
  split at e
  · cases e; exact ⟨ha, .inl ⟨‹_›, rfl⟩⟩
  · cases e; exact ⟨ha, .inr ⟨‹_›, rfl⟩⟩

theorem execEnd_next {s t : State} (h : execEnd s = .next t) :
    s.Admitted ∧ ((s.call = .busy ∧ t = flushTail s) ∨ (s.call ≠ .busy ∧ t = s)) := by
  obtain ⟨ha, e⟩ := onAdmitted_next h
  split at e
  · cases e; exact ⟨ha, .inl ⟨‹_›, rfl⟩⟩
  · cases e; exact ⟨ha, .inr ⟨‹_›, rfl⟩⟩

/-- Everything a command that answers a next state can have done. Either it is START, and a new call is open. Or it has
written a run of at most two symbols, all below `cap`, and then: nothing more; BYTE's new carry; END's DONE; or the
error, with the buffer full. -/
theorem exec_cases {i : Instr} {s t : State} (h : exec i s = .next t) :
    (i = .start ∧ t = openCall s) ∨
    (i ≠ .start ∧ ∃ is u, s.Wrote is u ∧ (s.obuf.wf → u.obuf.wf) ∧ is.length ≤ 2 ∧
      (is = [] ∨ s.wptr + is.length ≤ s.cap) ∧
      ((t = u ∧ is = []) ∨
        (s.call = .busy ∧ ∃ d, i = .byte d ∧ t = latchCarry s.remain d u) ∨
        (s.call = .busy ∧ i = .endCall ∧ t = closeCall u) ∨
        (s.call = .busy ∧ (i = .endCall ∨ ∃ d, i = .byte d) ∧ s.cap ≤ s.wptr + is.length ∧
          t = raiseInvalidOutputLength u))) := by
  cases i with
  | nop =>
    obtain ⟨-, rfl⟩ := execNop_next h
    exact .inr ⟨by simp, [], t, .nil t, id, by simp, .inl rfl, .inl ⟨rfl, rfl⟩⟩
  | start =>
    obtain ⟨-, -, rfl⟩ := execStart_next h
    exact .inl ⟨rfl, rfl⟩
  | byte d =>
    refine .inr ⟨by simp, ?_⟩
    obtain ⟨-, ⟨hb, rfl⟩ | ⟨-, rfl⟩⟩ := execByte_next h
    · rcases consumeByte_cases d s with ⟨is, u, hw, hm, -, h2, hc, e⟩ | ⟨is, u, hw, hm, h1, hc, hf, e⟩
      · exact ⟨is, u, hw, hm, h2, .inr hc, .inr (.inl ⟨hb, d, rfl, e⟩)⟩
      · exact ⟨is, u, hw, hm, by omega, hf.imp_right (by omega), .inr (.inr (.inr ⟨hb, .inr ⟨d, rfl⟩, hc, e⟩))⟩
    · exact ⟨[], t, .nil t, id, by simp, .inl rfl, .inl ⟨rfl, rfl⟩⟩
  | endCall =>
    refine .inr ⟨by simp, ?_⟩
    obtain ⟨-, ⟨hb, rfl⟩ | ⟨-, rfl⟩⟩ := execEnd_next h
    · by_cases hr : s.remain = 5#3
      · exact ⟨[], s, .nil s, id, by simp, .inl rfl, .inr (.inr (.inl ⟨hb, rfl, flushTail_none hr⟩))⟩
      · rcases Nat.lt_or_ge s.wptr s.cap with h' | h'
        · obtain ⟨u, hw, hm, e⟩ := flushTail_room hr h'
          exact ⟨_, u, hw, hm, by simp, .inr h', .inr (.inr (.inl ⟨hb, rfl, e⟩))⟩
        · exact ⟨[], s, .nil s, id, by simp, .inl rfl,
            .inr (.inr (.inr ⟨hb, .inl rfl, by simpa using h', flushTail_full hr h'⟩))⟩
    · exact ⟨[], t, .nil t, id, by simp, .inl rfl, .inl ⟨rfl, rfl⟩⟩

theorem execStart_of {s : State} (h : s.Admitted) (hb : s.bufferHolds s.capIn = true) :
    execStart s = .next (openCall s) := by
  simp [execStart, onAdmitted_of h, hb]

theorem execByte_busy {s : State} (d : Byte) (h : s.Admitted) (hb : s.call = .busy) :
    execByte d s = .next (consumeByte d s) := by
  simp [execByte, onAdmitted_of h, hb]

theorem execByte_ignored {s : State} (d : Byte) (h : s.Admitted) (hb : s.call ≠ .busy) : execByte d s = .next s := by
  simp [execByte, onAdmitted_of h, hb]

theorem execEnd_busy {s : State} (h : s.Admitted) (hb : s.call = .busy) : execEnd s = .next (flushTail s) := by
  simp [execEnd, onAdmitted_of h, hb]

theorem execEnd_ignored {s : State} (h : s.Admitted) (hb : s.call ≠ .busy) : execEnd s = .next s := by
  simp [execEnd, onAdmitted_of h, hb]

end Sys2Proof.Machine
end

