-- ==== Sys2Proof/Laws/Decode.lean ====
section
/-! SUPPORT. Laws/Decode.lean: the fields of a command word, and the word of each command (30_encoding.md R60, R61). -/

namespace Sys2Proof

theorem commandWord_toNat (op : BitVec 2) (d : Byte) : (commandWord op d).toNat = 256 * op.toNat + d.toNat := by
  have h : (commandWord op d).toNat = op.toNat <<< 8 ||| d.toNat := BitVec.toNat_append op d
  rw [h, ← Nat.shiftLeft_add_eq_or_of_lt d.isLt, Nat.shiftLeft_eq, Nat.mul_comm]

theorem opField_toNat (w : CmdWord) : (opField w).toNat = w.toNat / 256 := by
  have hw : w.toNat < 1024 := w.isLt
  have h : (opField w).toNat = w.toNat >>> 8 % 4 := BitVec.extractLsb'_toNat 8 2 w
  rw [h, Nat.shiftRight_eq_div_pow]
  omega

theorem dataField_toNat (w : CmdWord) : (dataField w).toNat = w.toNat % 256 := by
  have h : (dataField w).toNat = w.toNat >>> 0 % 256 := BitVec.extractLsb'_toNat 0 8 w
  rw [h, Nat.shiftRight_zero]

@[simp] theorem opField_commandWord (op : BitVec 2) (d : Byte) : opField (commandWord op d) = op := by
  apply BitVec.eq_of_toNat_eq
  have := d.isLt
  rw [opField_toNat, commandWord_toNat]
  omega

@[simp] theorem dataField_commandWord (op : BitVec 2) (d : Byte) : dataField (commandWord op d) = d := by
  apply BitVec.eq_of_toNat_eq
  have := d.isLt
  rw [dataField_toNat, commandWord_toNat]
  omega

/-- A word is its two fields. -/
theorem commandWord_fields (w : CmdWord) : commandWord (opField w) (dataField w) = w := by
  apply BitVec.eq_of_toNat_eq
  rw [commandWord_toNat, opField_toNat, dataField_toNat]
  omega

theorem decode_eq_endCall {w : CmdWord} (h : opField w = 0b11#2) : decode w = .endCall := by simp [decode, h]
theorem decode_eq_byte {w : CmdWord} (h : opField w = 0b10#2) : decode w = .byte (dataField w) := by
  simp [decode, h]
theorem decode_eq_start {w : CmdWord} (h : opField w = 0b01#2) : decode w = .start := by simp [decode, h]
theorem decode_eq_nop {w : CmdWord} (h : opField w = 0b00#2) : decode w = .nop := by simp [decode, h]

/-- Every word is the word of one of the four OP codes. -/
theorem opField_cases (w : CmdWord) :
    opField w = 0b00#2 ∨ opField w = 0b01#2 ∨ opField w = 0b10#2 ∨ opField w = 0b11#2 := by
  generalize opField w = op
  revert op
  decide

@[simp] theorem decode_nop_word : decode 0x000#10 = .nop := by decide
@[simp] theorem decode_start_word : decode 0x100#10 = .start := by decide
@[simp] theorem decode_end_word : decode 0x300#10 = .endCall := by decide

/-- The assembler's BYTE word (R67): `0x200 | b`. -/
theorem byteWord_eq (b : Byte) : 0x200#10 ||| BitVec.ofNat 10 b.toNat = commandWord 0b10#2 b := by
  have h : BitVec.ofNat 10 b.toNat = b.setWidth 10 := by
    apply BitVec.eq_of_toNat_eq
    simp
  rw [h]
  revert b
  decide

/-- The same, in the form `simp` gives the word. -/
@[simp] theorem decode_byteWord_setWidth (b : Byte) : decode (0x200#10 ||| b.setWidth 10) = .byte b := by
  have h : b.setWidth 10 = BitVec.ofNat 10 b.toNat := by
    apply BitVec.eq_of_toNat_eq
    simp
  rw [h, byteWord_eq, decode_eq_byte (opField_commandWord _ _), dataField_commandWord]

theorem decode_byteWord (b : Byte) : decode (0x200#10 ||| BitVec.ofNat 10 b.toNat) = .byte b := by
  rw [byteWord_eq, decode_eq_byte (opField_commandWord _ _), dataField_commandWord]

end Sys2Proof
end

