-- ==== Sys2Proof/Laws/PerInstr.lean ====
section
/-! SUPPORT. Laws/PerInstr.lean: statements about every command, one lemma a constructor. `InOpcodeMap`: the command's
word belongs to the row of R69 that carries its mnemonic, and to no other. -/

namespace Sys2Proof

/-- The encoding of the command is a word of its own row of the opcode map, and of no other row (R69). -/
def Laws.InOpcodeMap.Statement (i : Instr) : Prop :=
  ∀ r ∈ opcodeMap, r.holds (encode i) = decide (r.mnemonic = i.mnemonic)

theorem Laws.InOpcodeMap.nop : Laws.InOpcodeMap.Statement .nop := by
  unfold Laws.InOpcodeMap.Statement; decide

theorem Laws.InOpcodeMap.start : Laws.InOpcodeMap.Statement .start := by
  unfold Laws.InOpcodeMap.Statement; decide

theorem Laws.InOpcodeMap.byte (d : Byte) : Laws.InOpcodeMap.Statement (.byte d) := by
  unfold Laws.InOpcodeMap.Statement
  revert d
  decide

theorem Laws.InOpcodeMap.endCall : Laws.InOpcodeMap.Statement .endCall := by
  unfold Laws.InOpcodeMap.Statement; decide

end Sys2Proof
end

