-- ==== Sys2Proof/Laws/Step.lean ====
section
/-! SUPPORT. Laws/Step.lean: what a step can do (30_encoding.md R60; 70_reset_and_hazards.md R170, R174), and what a
run of steps is. -/

namespace Sys2Proof.Machine

theorem step_idle {s : State} (h : s.inputs = []) : step s = .next { s with obufPort := [] } := by
  have e : step s = .next (quietPort s) := by simp only [step, takeInput, h]
  exact e

theorem step_input {s : State} {h : HostInput} {rest : List HostInput} (hi : s.inputs = h :: rest) :
    step s = deliver h { s with inputs := rest, obufPort := [] } := by
  simp only [step, takeInput, hi]
  rfl

/-- Everything a step that answers a next state can have done. -/
theorem step_cases {s t : State} (h : step s = .next t) :
    (s.inputs = [] ∧ t = { s with obufPort := [] }) ∨
    (∃ w c rest, s.inputs = .command w c :: rest ∧
      exec (decode w) { s with inputs := rest, obufPort := [], capIn := c } = .next t) ∨
    (∃ rest, s.inputs = .reset :: rest ∧ t = resetRegisters { s with inputs := rest, obufPort := [] }) ∨
    (∃ n rest, s.inputs = .lend n :: rest ∧ ¬ (s.call = .busy ∧ n < s.cap) ∧
      t = { s with inputs := rest, obufPort := [], obufLen := some n }) ∨
    (∃ a v rest, s.inputs = .bufferWrite a v :: rest ∧ t = hostWrite a v { s with inputs := rest, obufPort := [] }) := by
  cases hi : s.inputs with
  | nil =>
    rw [step_idle hi] at h
    exact .inl ⟨rfl, by simpa only [hi] using (Host.Outcome.next.inj h).symm⟩
  | cons i rest =>
    rw [step_input hi] at h
    cases i with
    | command w c => exact .inr (.inl ⟨w, c, rest, rfl, h⟩)
    | reset => cases h; exact .inr (.inr (.inl ⟨rest, rfl, rfl⟩))
    | lend n =>
      simp only [deliver, lendBuffer] at h
      split at h
      · cases h
      · cases h; exact .inr (.inr (.inr (.inl ⟨n, rest, rfl, ‹_›, rfl⟩)))
    | bufferWrite a v => cases h; exact .inr (.inr (.inr (.inr ⟨a, v, rest, rfl, rfl⟩)))

/-! A host write (R176): all but OBUF and the race fields stands. -/

section
variable (a : Nat) (v : Byte) (s : State)

/-- A host write outside an open call's cells. -/
theorem hostWrite_outside {s : State} (h : ¬ (s.call = .busy ∧ a < s.cap)) :
    hostWrite a v s = { s with obuf := s.obuf.write a v } := if_neg h

/-- A host write to a cell of an open call whose symbol is written. -/
theorem hostWrite_behind {s : State} (hb : s.call = .busy) (hc : a < s.cap) (h : a < s.wptr) :
    hostWrite a v s = { s with
      obuf := s.obuf.write a (if Config.raceKeepsHost s.draws then v else s.symbols.getD a v)
      draws := s.draws + 1 } := by
  simp only [hostWrite, if_pos (And.intro hb hc), if_pos h]

/-- A host write to a cell of an open call that the block has not reached. -/
theorem hostWrite_ahead {s : State} (hb : s.call = .busy) (hc : a < s.cap) (h : s.wptr ≤ a) :
    hostWrite a v s = { s with
      obuf := s.obuf.write a v, raced := if a ∈ s.raced then s.raced else a :: s.raced } := by
  simp only [hostWrite, if_pos (And.intro hb hc), if_neg (Nat.not_lt.mpr h)]

@[simp] theorem hostWrite_call : (hostWrite a v s).call = s.call := by
  unfold hostWrite; split <;> [split <;> rfl; rfl]
@[simp] theorem hostWrite_remain : (hostWrite a v s).remain = s.remain := by
  unfold hostWrite; split <;> [split <;> rfl; rfl]
@[simp] theorem hostWrite_current : (hostWrite a v s).current = s.current := by
  unfold hostWrite; split <;> [split <;> rfl; rfl]
@[simp] theorem hostWrite_wptr : (hostWrite a v s).wptr = s.wptr := by
  unfold hostWrite; split <;> [split <;> rfl; rfl]
@[simp] theorem hostWrite_cap : (hostWrite a v s).cap = s.cap := by
  unfold hostWrite; split <;> [split <;> rfl; rfl]
@[simp] theorem hostWrite_olen : (hostWrite a v s).olen = s.olen := by
  unfold hostWrite; split <;> [split <;> rfl; rfl]
@[simp] theorem hostWrite_capIn : (hostWrite a v s).capIn = s.capIn := by
  unfold hostWrite; split <;> [split <;> rfl; rfl]
@[simp] theorem hostWrite_obufLen : (hostWrite a v s).obufLen = s.obufLen := by
  unfold hostWrite; split <;> [split <;> rfl; rfl]
@[simp] theorem hostWrite_obufPort : (hostWrite a v s).obufPort = s.obufPort := by
  unfold hostWrite; split <;> [split <;> rfl; rfl]
@[simp] theorem hostWrite_inputs : (hostWrite a v s).inputs = s.inputs := by
  unfold hostWrite; split <;> [split <;> rfl; rfl]

@[simp] theorem hostWrite_symbols : (hostWrite a v s).symbols = s.symbols := by
  unfold hostWrite; split <;> [split <;> rfl; rfl]

/-- A host write keeps the canonical form. -/
theorem hostWrite_wf {s : State} (h : s.obuf.wf) : (hostWrite a v s).obuf.wf := by
  unfold hostWrite
  split
  · split
    · exact Memory.write_wf h _ _
    · exact Memory.write_wf h _ _
  · exact Memory.write_wf h _ _

/-- In an open call a new raced cell lies at or above the next write position. -/
theorem hostWrite_raced {s : State} {b : Nat} (hb : b ∈ (hostWrite a v s).raced) :
    b ∈ s.raced ∨ s.wptr ≤ b := by
  unfold hostWrite at hb
  split at hb
  · split at hb
    · exact .inl hb
    · simp only at hb
      split at hb
      · exact .inl hb
      · rcases List.mem_cons.mp hb with rfl | hb
        · exact .inr (Nat.not_lt.mp ‹_›)
        · exact .inl hb
  · exact .inl hb

end

/-! Runs of steps. -/

@[simp] theorem run_zero (s : State) : Host.Core.run core 0 s = .next s := rfl

theorem run_succ {s t : State} (k : Nat) (h : step s = .next t) :
    Host.Core.run core (k + 1) s = Host.Core.run core k t := by
  have h' : core.step s = .next t := h
  simp only [Host.Core.run, h']

/-- A run of `j` steps and then `k` more. -/
theorem run_add {s t : State} (j k : Nat) (h : Host.Core.run core j s = .next t) :
    Host.Core.run core (j + k) s = Host.Core.run core k t := by
  induction j generalizing s with
  | zero => cases h; simp
  | succ j ih =>
    rw [Nat.succ_add]
    cases hs : step s with
    | next u => rw [run_succ _ hs] at h ⊢; exact ih h
    | fault r => exact nomatch r
    | refused r =>
      have h' : core.step s = .refused r := hs
      simp only [Host.Core.run, h'] at h
      cases h

end Sys2Proof.Machine
end

