-- ==== Sys2Proof/Laws/Platform.lean ====
section
/-! SUPPORT. Laws/Platform.lean: what a platform step can do (60_exceptions.md R159; 20_memory.md R51). -/

namespace Sys2Proof.Machine

/-- The admitted platforms, by the positions of the instances. -/
theorem Platform.admitted_iff (p : Platform) : p.admitted = true ↔
    ∀ (i j : Nat) (hi : i < p.encoders.length) (hj : j < p.encoders.length), i < j →
      p.encoders[i].clashes p.encoders[j] = false := by
  rw [Platform.admitted, decide_eq_true_eq]
  exact List.pairwise_iff_getElem

theorem Encoder.claims_iff (e : Encoder) (a : Nat) :
    e.claims a = true ↔ e.block.call = .busy ∧ e.base ≤ a ∧ a < e.base + e.block.cap := by
  rw [Encoder.claims, decide_eq_true_eq]

/-- Two busy instances that both own an address clash. -/
theorem Encoder.clashes_of_claims {e f : Encoder} {a : Nat} (he : e.claims a = true) (hf : f.claims a = true) :
    e.clashes f = true := by
  rw [Encoder.claims_iff] at he hf
  rw [Encoder.clashes, decide_eq_true_eq]
  exact ⟨he.1, hf.1, by omega⟩

section
variable (p : Platform) (k : Nat) (e : Encoder) (t : State)

@[simp] theorem Platform.store_encoders :
    (p.store k e t).encoders = p.encoders.set k { e with block := { t with obuf := [] } } := rfl
@[simp] theorem Platform.store_mem : (p.store k e t).mem = p.mem.withView e.base t.obuf := rfl
@[simp] theorem Platform.store_draws : (p.store k e t).draws = t.draws := rfl
@[simp] theorem Platform.store_inputs : (p.store k e t).inputs = p.inputs := rfl

end

theorem Platform.settle_next {p q : Platform} (h : p.settle = .next q) : q = p ∧ p.admitted = true := by
  unfold Platform.settle at h
  split at h
  · cases h; exact ⟨rfl, ‹_›⟩
  · cases h

/-- What a step of one instance does to the platform. -/
theorem Platform.runEncoder_next {k : Nat} {h : HostInput} {p q : Platform} (hq : p.runEncoder k h = .next q) :
    ∃ e t, p.encoders[k]? = some e ∧ Machine.deliver h (p.load e) = .next t ∧ q = p.store k e t ∧
      q.admitted = true := by
  unfold Platform.runEncoder at hq
  split at hq
  · cases hq
  · rename_i e he
    split at hq
    · rename_i t ht
      obtain ⟨rfl, h⟩ := Platform.settle_next hq
      exact ⟨e, t, he, ht, rfl, h⟩
    · rename_i f _
      exact nomatch f
    · cases hq

/-- A platform's memory keeps the canonical form when a view of it does. -/
theorem Platform.store_wf {p : Platform} (hm : p.mem.wf) (k : Nat) (e : Encoder) {t : State} (ht : t.obuf.wf) :
    (p.store k e t).mem.wf := Memory.withView_wf hm ht e.base

theorem Platform.load_wf {p : Platform} (hm : p.mem.wf) (e : Encoder) : (p.load e).obuf.wf :=
  Memory.viewFrom_wf hm e.base

end Sys2Proof.Machine
end

