-- ==== Sys2Proof/Laws/Stream.lean ====
section
/-! SUPPORT. Laws/Stream.lean: the datapath's indexes are the symbols of the input stream (42_encode_contract.md R132,
R140, R141), and the inputs of a call. -/

namespace Sys2Proof.Machine

/-- R140: how `remain` goes on. -/
theorem phaseRemain_succ (n : Nat) :
    phaseRemain (n + 1) = if phaseRemain n ≤ 3 then 2 + phaseRemain n else phaseRemain n - 3 := by
  have h1 := phaseRemain_spec n
  have h2 := phaseRemain_spec (n + 1)
  split <;> omega

/-- R141: how many symbols a byte completes. -/
theorem symbolCount_succ (n : Nat) : 8 * (n + 1) / 5 = 8 * n / 5 + if phaseRemain n ≤ 3 then 2 else 1 := by
  have h1 := phaseRemain_spec n
  split <;> omega

/-- The required length is the whole symbols and one more for a partial one (R103, R131). -/
theorem requiredLength_eq (n : Nat) : requiredLength n = 8 * n / 5 + if phaseRemain n = 5 then 0 else 1 := by
  have h1 := phaseRemain_spec n
  unfold requiredLength
  split <;> omega

@[simp] theorem phaseCurrent_append (bs : List Byte) (d : Byte) :
    phaseCurrent (bs ++ [d]) = d.toNat / 2 ^ (3 + phaseRemain (bs.length + 1)) := by
  simp [phaseCurrent, Nat.shiftRight_eq_div_pow]

/-- R140: the carry bits are the last stream bits. -/
theorem phaseCurrent_testBit (bs : List Byte) {j : Nat} (h : j < 5 - phaseRemain bs.length) :
    (phaseCurrent bs).testBit j = streamBit bs (5 * (8 * bs.length / 5) + j) := by
  rcases List.eq_nil_or_concat bs with rfl | ⟨pre, d, rfl⟩
  · simp [phaseRemain] at h
  · rw [List.concat_eq_append] at h ⊢
    have hr := phaseRemain_spec (pre ++ [d]).length
    simp only [List.length_append, List.length_singleton] at h hr ⊢
    rw [phaseCurrent_append, Nat.testBit_div_two_pow, streamBit_append_ge d (by omega), BitVec.getLsbD]
    congr 1
    omega

theorem phaseCurrent_lt (bs : List Byte) : phaseCurrent bs < 2 ^ (5 - phaseRemain bs.length) := by
  rcases List.eq_nil_or_concat bs with rfl | ⟨pre, d, rfl⟩
  · exact Nat.pow_pos (by decide)
  · rw [List.concat_eq_append]
    have hr := phaseRemain_spec (pre.length + 1)
    simp only [phaseCurrent_append, List.length_append, List.length_singleton]
    refine (Nat.div_lt_iff_lt_mul (by positivity)).mpr ?_
    rw [← Nat.pow_add, show 5 - phaseRemain (pre.length + 1) + (3 + phaseRemain (pre.length + 1)) = 8 by omega]
    exact d.isLt

theorem symbolIndex_toNat (bs : List Byte) (k : Nat) : (BitVec.ofNat 5 (symbolIndex bs k)).toNat = symbolIndex bs k :=
  Nat.mod_eq_of_lt (symbolIndex_lt bs k)

/-- R82 is R132: the first index of a byte is the symbol its bits complete. -/
theorem idx1_stream {bs : List Byte} {r : BitVec 3} {c : BitVec 5} (d : Byte) (hr : r.toNat = phaseRemain bs.length)
    (hc : c.toNat = phaseCurrent bs) : idx1 r c d = BitVec.ofNat 5 (symbolIndex (bs ++ [d]) (8 * bs.length / 5)) := by
  have hs := phaseRemain_spec bs.length
  have hlt : c.toNat < 2 ^ (5 - r.toNat) := by rw [hc, hr]; exact phaseCurrent_lt bs
  apply BitVec.eq_of_toNat_eq
  rw [idx1_toNat d (by omega) hlt, symbolIndex_toNat, Nat.add_comm]
  apply Nat.eq_of_testBit_eq
  intro j
  rw [Nat.testBit_two_pow_mul_add _ hlt, symbolIndex_testBit]
  split
  · rename_i hj
    rw [hc, phaseCurrent_testBit bs (by omega), streamBit_append_lt d (by omega)]
    simp
    omega
  · rename_i hj
    rw [Nat.testBit_mod_two_pow, streamBit_append_ge d (by omega), BitVec.getLsbD]
    congr 1
    · simp only [decide_eq_decide]; omega
    · congr 1; omega

/-- R85 is R132: the second index of a byte is the next symbol. -/
theorem idx2_stream {bs : List Byte} {r : BitVec 3} (d : Byte) (hr : r.toNat = phaseRemain bs.length) :
    idx2 r d = BitVec.ofNat 5 (symbolIndex (bs ++ [d]) (8 * bs.length / 5 + 1)) := by
  have hs := phaseRemain_spec bs.length
  apply BitVec.eq_of_toNat_eq
  rw [idx2_toNat, symbolIndex_toNat]
  apply Nat.eq_of_testBit_eq
  intro j
  rw [show (32 : Nat) = 2 ^ 5 from rfl, Nat.testBit_mod_two_pow, Nat.testBit_div_two_pow, symbolIndex_testBit,
    streamBit_append_ge d (by omega), BitVec.getLsbD]
  congr 2
  omega

/-- R87 is R132: the tail index is the last, partial symbol. -/
theorem tail_stream (bs : List Byte) : symbolIndex bs (8 * bs.length / 5) = phaseCurrent bs := by
  have hs := phaseRemain_spec bs.length
  apply Nat.eq_of_testBit_eq
  intro j
  rw [symbolIndex_testBit]
  rcases Nat.lt_or_ge j (5 - phaseRemain bs.length) with hj | hj
  · rw [phaseCurrent_testBit bs hj]
    simp
    omega
  · rw [Nat.testBit_lt_two_pow (lt_of_lt_of_le (phaseCurrent_lt bs) (Nat.pow_le_pow_right (by decide) hj))]
    have : streamBit bs (5 * (8 * bs.length / 5) + j) = false := by
      unfold streamBit
      rw [List.getElem?_eq_none (by omega)]
    simp [this]

/-! The inputs of a call. -/

theorem openCallInputs_eq (idle cap : Nat) (bs : List Byte) :
    openCallInputs idle cap bs =
      .command 0x100#10 cap :: bs.map (fun b => .command (0x200#10 ||| BitVec.ofNat 10 b.toNat) idle) := by
  simp [openCallInputs, Line.words, Line.expand, Line.word, List.flatMap_map, portInput]
  induction bs with
  | nil => rfl
  | cons b bs ih => simp [List.flatMap_cons, portInput, ih]

theorem callInputs_eq (idle cap : Nat) (bs : List Byte) :
    callInputs idle cap bs = openCallInputs idle cap bs ++ [.command 0x300#10 idle] := by
  rw [openCallInputs_eq]
  simp [callInputs, Line.words, Line.expand, Line.word, portInput]
  induction bs with
  | nil => rfl
  | cons b bs ih => simp [Line.word, portInput, ih]

end Sys2Proof.Machine
end

