-- ==== Sys2Proof/Tests/Slice0.lean ====
section
/-! SUPPORT. Tests/Slice0.lean: small checks against values written in the spec (each names its source), the WellFormed
smoke, and a witness for the hypotheses of each obligation that has some. -/

namespace Sys2Proof.Tests

open Sys2Proof.Machine

/-- The outcome is a next state with the property. -/
def nextIs (o : Host.Outcome State Fault Refusal) (p : State → Bool) : Bool :=
  match o with
  | .next t => p t
  | .fault _ => false
  | .refused _ => false

theorem nextIs_elim {o : Host.Outcome State Fault Refusal} {p : State → Bool} (h : nextIs o p = true) :
    ∃ t, o = .next t ∧ p t = true := by
  cases o with
  | next t => exact ⟨t, rfl, h⟩
  | fault f => cases f
  | refused r => cases h

/-- A step from a concrete state ends in a next state with a decidable property. -/
theorem step_to (s : State) (p : State → Prop) [DecidablePred p] (h : nextIs (step s) (fun t => decide (p t)) = true) :
    ∃ t, step s = .next t ∧ p t := by
  obtain ⟨t, e, ht⟩ := nextIs_elim h
  exact ⟨t, e, of_decide_eq_true ht⟩

/-! ## WellFormed: each check refuses an ill-formed value -/

theorem test_cap_width_zero_refused : capWidthOk 0 = false := by decide
theorem test_cap_in_too_wide_refused : capInOk 4 16 = false ∧ capInOk 4 15 = true := by decide
theorem test_byte_operand_256_refused : byteOperandOk 256 = false ∧ byteOperandOk 255 = true := by decide
theorem test_line_out_of_range_refused :
    Line.wf 4 (.start 16) = false ∧ Line.wf 4 (.byte 256) = false ∧ Line.wf 4 (.encode 3 [1, 256]) = false := by decide

/-! ## Decode: words written out from R60, R61, R67 and 95_test_vectors.md -/

theorem test_decode_nop_word : decodeTableWord 16 0b00_00000000 = some .nop := by decide
theorem test_decode_start_word : decodeTableWord 16 0b01_00000000 = some .start := by decide
theorem test_decode_start_word_with_data : decodeTableWord 16 0b01_11111111 = some .start := by decide
theorem test_decode_byte_word : decodeTableWord 16 0b10_01000001 = some (.byte 0x41#8) := by decide
theorem test_decode_end_word : decodeTableWord 16 0b11_00000000 = some .endCall := by decide
theorem test_decode_refuses_eleven_bits : decodeNat 0x400 = .error .wordWiderThanTenBits := by decide
theorem test_encode_byte : encode (.byte 0x6F#8) = 0x26F#10 := by decide

/-! ## Datapath: 95_test_vectors.md section 2.1 -/

theorem test_datapath_vectors :
    mask 1 = 0x01 ∧ mask 5 = 0x1F ∧ mask 7 = 0x7F ∧ alphabet 25#5 = 0x5A#8 ∧ alphabet 26#5 = 0x32#8 ∧
      idx1 5#3 0#5 0xE0#8 = 0#5 ∧ idx1 1#3 0xF#5 0xFE#8 = 0x0F#5 ∧ idx1 1#3 0#5 0x01#8 = 0x10#5 ∧
      extracted 1#3 0xFF#8 = 0x7F := by decide

/-- Section 1: [FF FF] gives "777B"; section 2.6: "foobar" gives "G336GRFMSD". -/
theorem test_stream_vectors :
    (List.range 4).map (symbolCode [0xFF#8, 0xFF#8]) = [0x37#8, 0x37#8, 0x37#8, 0x42#8] ∧
      (List.range 10).map (symbolCode [0x66#8, 0x6F#8, 0x6F#8, 0x62#8, 0x61#8, 0x72#8]) =
        [0x47#8, 0x33#8, 0x33#8, 0x36#8, 0x47#8, 0x52#8, 0x46#8, 0x4D#8, 0x53#8, 0x44#8] := by decide

/-! ## One step of each command -/

/-- An open call in a phase, with a stated buffer of 8 cells. -/
def openState (remain : BitVec 3) (current : BitVec 5) (wptr cap : Nat) : State :=
  { State.reset with
    call := .busy, remain := remain, current := current, wptr := wptr, cap := cap, obufLen := some 8
    symbols := List.replicate wptr 0x41#8 }

/-- The state after a failed call: R101's worked example starts here. -/
def errorState : State :=
  { State.reset with
    call := .error, remain := 4#3, current := 1#5, wptr := 3, cap := 3, olen := true, obufLen := some 8
    symbols := [0x37#8, 0x37#8, 0x37#8] }

/-- The state with one command on the port. -/
def withCommand (s : State) (w : CmdWord) (c : Nat) : State := { s with inputs := [.command w c] }

/-- R100's worked example: in BUSY with wptr 3, word 0x000. -/
theorem test_nop_keeps_state :
    nextIs (step (withCommand (openState 4#3 0#5 3 8) 0x000#10 0)) (fun t => t.status = 0x01#8 ∧ t.wptr = 3) = true := by
  decide

/-- R101's worked example: from ERROR with wptr 3, START 8; vector S9's word with DATA bits set. -/
theorem test_start_from_error :
    nextIs (step (withCommand errorState 0x1FF#10 8))
      (fun t => t.status = 0x01#8 ∧ t.wptr = 0 ∧ t.cap = 8 ∧ t.remain = 5#3 ∧ t.current = 0#5) = true := by
  decide

/-- Section 2.2, phase 1, current 0x07, d 0x5A: writes "XW" at 1 and 2, remain 4, current 0, wptr 3. -/
theorem test_byte_two_symbols :
    nextIs (step (withCommand (openState 2#3 7#5 1 8) 0x25A#10 0))
      (fun t => t.obuf.read 1 = some 0x58#8 ∧ t.obuf.read 2 = some 0x57#8 ∧ t.remain = 4#3 ∧ t.current = 0#5 ∧
        t.wptr = 3) = true := by
  decide

/-- Vector X2: cap 2, the second write of the second BYTE 0xFF fails and the first stays. -/
theorem test_byte_second_write_fails :
    nextIs (step (withCommand (openState 2#3 7#5 1 2) 0x2FF#10 0))
      (fun t => t.obuf.read 1 = some 0x37#8 ∧ t.obuf.read 2 = none ∧ t.status = 0x07#8 ∧ t.count = 2 ∧
        t.remain = 2#3 ∧ t.current = 7#5) = true := by
  decide

/-- Section 2.3, phase 3, three bytes 0xFF: END writes "P" at 4. -/
theorem test_end_writes_tail :
    nextIs (step (withCommand (openState 1#3 0x0F#5 4 8) 0x300#10 0))
      (fun t => t.obuf.read 4 = some 0x50#8 ∧ t.status = 0x02#8 ∧ t.count = 5) = true := by
  decide

/-- Vector X4: one symbol short, END fails. -/
theorem test_end_one_symbol_short :
    nextIs (step (withCommand (openState 1#3 0x0F#5 4 4) 0x300#10 0))
      (fun t => t.obuf = [] ∧ t.status = 0x07#8 ∧ t.count = 4) = true := by
  decide

/-- A table word is the first thing to run from reset. -/
theorem test_fetch_word_runs_first :
    nextIs (step (State.reset.withFetchWord 16 0x100)) (fun t => t.call = .busy ∧ t.inputs = []) = true := by decide

/-- 93 I6: a second host write to a cell whose race the host has won (it holds 0x11) leaves the host's new value or the
symbol, 0x41, and not 0x11. -/
theorem test_second_host_write_races_with_the_symbol :
    let s : State := { openState 2#3 7#5 1 8 with obuf := [(0, 0x11#8)] }
    (hostWrite 0 0x22#8 s).obuf.read 0 = some 0x22#8 ∨ (hostWrite 0 0x22#8 s).obuf.read 0 = some 0x41#8 := by
  intro s
  rw [hostWrite_behind 0 _ (s := s) rfl (by decide) (by decide)]
  cases Config.raceKeepsHost s.draws
  · exact .inr (by decide)
  · exact .inl (by decide)

/-! ## The assembler: R67 and R68 -/

theorem test_assemble_start_line :
    assembleLine 8 ['s', 't', 'a', 'R', 'T', ' ', '0', 'x', '1', 'F', ';', 'x'] = some [(0x100#10, some 31)] := by decide
theorem test_assemble_encode_line :
    assembleLine 8 ['E', 'N', 'C', 'O', 'D', 'E', ' ', '2', ',', ' ', '2', '5', '5'] =
      some [(0x100#10, some 2), (0x2FF#10, none), (0x300#10, none)] := by decide
theorem test_assemble_refuses_wide_byte :
    assembleLine 8 ['B', 'Y', 'T', 'E', ' ', '2', '5', '6'] = none ∧
      assembleLine 8 ['B', 'Y', 'T', 'E', ' ', '2', '5', '5'] = some [(0x2FF#10, none)] := by decide

/-! ## Witnesses: the hypotheses of each obligation can be met together -/

theorem open_admitted_5 : (openState 5#3 0#5 0 8).Admitted := ⟨by decide, by decide⟩
theorem open_admitted_4 : (openState 4#3 1#5 3 8).Admitted := ⟨by decide, by decide⟩
theorem open_admitted_2 : (openState 2#3 7#5 1 8).Admitted := ⟨by decide, by decide⟩
theorem open_admitted_1 : (openState 1#3 15#5 4 8).Admitted := ⟨by decide, by decide⟩
theorem open_admitted_3 : (openState 3#3 3#5 6 8).Admitted := ⟨by decide, by decide⟩

/-- A good state in an open call. -/
theorem open_inv : (withCommand (openState 2#3 7#5 1 8) 0x25A#10 4).Inv :=
  ⟨by decide, by decide, by decide, by decide, by decide, by decide, by decide, by decide⟩

theorem errorState_inv : errorState.Inv :=
  ⟨by decide, by decide, by decide, by decide, by decide, by decide, by decide, by decide⟩

theorem error_inv (is : List HostInput) : { errorState with inputs := is }.Inv :=
  let h := errorState_inv
  ⟨h.carry, h.wptr_le_cap, h.error_iff_olen, h.idle_clear, h.capacity, h.memory, h.symbols_length, h.races_ahead⟩

theorem witness_DecodeEncodeAgree : (Instr.byte 0xFF#8).wf = true := by decide

theorem witness_DataFieldIgnored :
    (0x1FF#10 : CmdWord) &&& 0x300#10 = 0x100#10 &&& 0x300#10 ∧ (0x1FF#10 : CmdWord) &&& 0x300#10 ≠ 0x200#10 := by decide

theorem witness_StepRunsDecodedCommand :
    (withCommand State.reset 0x100#10 8).inputs = .command 0x100#10 8 :: [] := rfl

theorem witness_ResetSetsEveryRegister : { errorState with inputs := [.reset] }.inputs = .reset :: [] := rfl

theorem witness_IdleStepHoldsRegisters : (openState 2#3 7#5 1 8).inputs = [] := rfl

/-- A step from a good state that changes it: BYTE in an open call. -/
theorem witness_StepKeepsInvariant :
    ∃ s t : State, s.Inv ∧ step s = .next t ∧ t.wptr = 3 := by
  obtain ⟨t, e, h⟩ := step_to (withCommand (openState 2#3 7#5 1 8) 0x25A#10 4) (fun t => t.wptr = 3) (by decide)
  exact ⟨_, t, open_inv, e, h⟩

theorem witness_ReachableStatesSatisfyR30 :
    ∃ (is : List HostInput) (t : State), Host.Core.run core 1 { State.reset with inputs := is } = .next t ∧
      t.call = .busy := by
  obtain ⟨t, e, h⟩ := nextIs_elim
    (o := Host.Core.run core 1 { State.reset with inputs := [.command 0x100#10 8] }) (p := fun t => t.call = .busy)
    (by decide)
  exact ⟨_, t, e, of_decide_eq_true h⟩

theorem open_fits_width : (withCommand (openState 2#3 7#5 1 8) 0x25A#10 4).FitsWidth 4 :=
  ⟨by decide, fun w c h => by
    simp only [withCommand, List.mem_singleton, HostInput.command.injEq] at h
    omega, by decide, by decide, by decide⟩

theorem witness_StepKeepsCapWidth :
    ∃ s t : State, s.Inv ∧ s.FitsWidth 4 ∧ step s = .next t ∧ t.wptr = 3 := by
  obtain ⟨t, e, h⟩ := step_to (withCommand (openState 2#3 7#5 1 8) 0x25A#10 4) (fun t => t.wptr = 3) (by decide)
  exact ⟨_, t, open_inv, open_fits_width, e, h⟩

theorem witness_StatusView : errorState.Inv := error_inv []

theorem witness_EveryCommandCompletes :
    State.reset.Admitted ∧ State.reset.bufferHolds 8 = true ∧ (openState 5#3 0#5 0 8).Admitted :=
  ⟨⟨by decide, by decide⟩, by decide, open_admitted_5⟩

theorem witness_NopChangesNothing : errorState.Admitted := ⟨by decide, by decide⟩

theorem witness_StartOpensCall :
    { errorState with capIn := 8 }.Admitted ∧ { errorState with capIn := 8 }.bufferHolds 8 = true :=
  ⟨⟨by decide, by decide⟩, by decide⟩

theorem witness_CapacityBeyondBufferRefused_start :
    { errorState with capIn := 9 }.Admitted ∧ { errorState with capIn := 9 }.obufLen = some 8 ∧ 8 < 9 :=
  ⟨⟨by decide, by decide⟩, rfl, by decide⟩

theorem witness_CapacityBeyondBufferRefused_open :
    (openState 5#3 0#5 0 9).carryLegal = true ∧ (openState 5#3 0#5 0 9).call = .busy ∧
      (openState 5#3 0#5 0 9).obufLen = some 8 ∧ 8 < (openState 5#3 0#5 0 9).cap := by decide

theorem witness_IllegalCarryRefused :
    (openState 0#3 0#5 0 8).remain = 0#3 ∧ (openState 6#3 0#5 0 8).remain = 6#3 ∧ (openState 7#3 0#5 0 8).remain = 7#3 ∧
      2 ^ (5 - (openState 5#3 1#5 0 8).remain.toNat) ≤ (openState 5#3 1#5 0 8).current.toNat := by decide

theorem witness_ByteAndEndIgnoredOutsideCall : State.reset.Admitted ∧ State.reset.call ≠ .busy :=
  ⟨⟨by decide, by decide⟩, by decide⟩

/-- R86's clauses, each at the last cell that has room. -/
theorem witness_ByteWritesOneSymbol_5 :
    (openState 5#3 0#5 7 8).Admitted ∧ (openState 5#3 0#5 7 8).call = .busy ∧
      (openState 5#3 0#5 7 8).wptr < (openState 5#3 0#5 7 8).cap ∧ (openState 5#3 0#5 7 8).remain = 5#3 :=
  ⟨⟨by decide, by decide⟩, rfl, by decide, rfl⟩

theorem witness_ByteWritesOneSymbol_4 :
    (openState 4#3 1#5 3 4).Admitted ∧ (openState 4#3 1#5 3 4).call = .busy ∧
      (openState 4#3 1#5 3 4).wptr < (openState 4#3 1#5 3 4).cap ∧ (openState 4#3 1#5 3 4).remain = 4#3 :=
  ⟨⟨by decide, by decide⟩, rfl, by decide, rfl⟩

theorem witness_ByteWritesTwoSymbols_2 :
    (openState 2#3 7#5 1 3).Admitted ∧ (openState 2#3 7#5 1 3).call = .busy ∧
      (openState 2#3 7#5 1 3).wptr + 1 < (openState 2#3 7#5 1 3).cap ∧ (openState 2#3 7#5 1 3).remain = 2#3 :=
  ⟨⟨by decide, by decide⟩, rfl, by decide, rfl⟩

theorem witness_ByteWritesTwoSymbols_1 :
    (openState 1#3 15#5 4 6).Admitted ∧ (openState 1#3 15#5 4 6).call = .busy ∧
      (openState 1#3 15#5 4 6).wptr + 1 < (openState 1#3 15#5 4 6).cap ∧ (openState 1#3 15#5 4 6).remain = 1#3 :=
  ⟨⟨by decide, by decide⟩, rfl, by decide, rfl⟩

theorem witness_ByteWritesTwoSymbols_3 :
    (openState 3#3 3#5 6 8).Admitted ∧ (openState 3#3 3#5 6 8).call = .busy ∧
      (openState 3#3 3#5 6 8).wptr + 1 < (openState 3#3 3#5 6 8).cap ∧ (openState 3#3 3#5 6 8).remain = 3#3 :=
  ⟨open_admitted_3, rfl, by decide, rfl⟩

theorem witness_ByteFirstWriteRaises :
    (openState 2#3 7#5 1 1).Admitted ∧ (openState 2#3 7#5 1 1).call = .busy ∧
      (openState 2#3 7#5 1 1).cap ≤ (openState 2#3 7#5 1 1).wptr :=
  ⟨⟨by decide, by decide⟩, rfl, by decide⟩

theorem witness_ByteSecondWriteRaises :
    (openState 3#3 3#5 6 7).Admitted ∧ (openState 3#3 3#5 6 7).call = .busy ∧
      (openState 3#3 3#5 6 7).wptr + 1 = (openState 3#3 3#5 6 7).cap ∧ (openState 3#3 3#5 6 7).remain.toNat ≤ 3 :=
  ⟨⟨by decide, by decide⟩, rfl, by decide, by decide⟩

theorem witness_EndWithoutTail :
    (openState 5#3 0#5 8 8).Admitted ∧ (openState 5#3 0#5 8 8).call = .busy ∧ (openState 5#3 0#5 8 8).remain = 5#3 :=
  ⟨⟨by decide, by decide⟩, rfl, rfl⟩

theorem witness_EndWritesTail :
    (openState 1#3 15#5 4 5).Admitted ∧ (openState 1#3 15#5 4 5).call = .busy ∧ (openState 1#3 15#5 4 5).remain ≠ 5#3 ∧
      (openState 1#3 15#5 4 5).wptr < (openState 1#3 15#5 4 5).cap :=
  ⟨⟨by decide, by decide⟩, rfl, by decide, by decide⟩

theorem witness_EndTailRaises :
    (openState 1#3 15#5 4 4).Admitted ∧ (openState 1#3 15#5 4 4).call = .busy ∧ (openState 1#3 15#5 4 4).remain ≠ 5#3 ∧
      (openState 1#3 15#5 4 4).cap ≤ (openState 1#3 15#5 4 4).wptr :=
  ⟨⟨by decide, by decide⟩, rfl, by decide, by decide⟩

/-- A BYTE that writes two symbols, from a good state. -/
theorem byte_runs : ∃ t, (openState 2#3 7#5 1 8).Inv ∧ exec (.byte 0x5A#8) (openState 2#3 7#5 1 8) = .next t ∧
    t.obufPort = (openState 2#3 7#5 1 8).obufPort ++ [(1, 0x58#8), (2, 0x57#8)] :=
  ⟨_, ⟨by decide, by decide, by decide, by decide, by decide, by decide, by decide, by decide⟩,
    execByte_busy _ open_admitted_2 rfl, by decide⟩

theorem witness_WritesInOrderBelowCap :
    ∃ i s t, s.Inv ∧ exec i s = .next t := by
  obtain ⟨t, h, e, -⟩ := byte_runs; exact ⟨_, _, t, h, e⟩

theorem witness_MemoryChangesOnlyThroughPort : ∃ i s t, exec i s = .next t := by
  obtain ⟨t, -, e, -⟩ := byte_runs; exact ⟨_, _, t, e⟩

theorem witness_WrittenBytesAreSymbols :
    ∃ i s t ws, exec i s = .next t ∧ t.obufPort = s.obufPort ++ ws ∧ ws.length = 2 := by
  obtain ⟨t, -, e, h⟩ := byte_runs; exact ⟨_, _, t, _, e, h, rfl⟩

theorem witness_CommandsNeverReadObuf : ∃ i s t, exec i s = .next t := by
  obtain ⟨t, -, e, -⟩ := byte_runs; exact ⟨_, _, t, e⟩

theorem witness_ReadDuringCommand : ∃ i s t, exec i s = .next t ∧ s.raced = [] := by
  obtain ⟨t, -, e, -⟩ := byte_runs; exact ⟨_, _, t, e, rfl⟩

theorem witness_ErrorRecordsFailure :
    ∃ i s t, s.Inv ∧ s.call ≠ .error ∧ exec i s = .next t ∧ t.call = .error :=
  ⟨.byte 0xFF#8, openState 2#3 7#5 1 2, _,
    ⟨by decide, by decide, by decide, by decide, by decide, by decide, by decide, by decide⟩, by decide,
    execByte_busy _ ⟨by decide, by decide⟩ rfl, by decide⟩

/-- ERROR stays under a NOP, and is left by START. -/
theorem witness_ErrorLeftOnlyByStartOrReset_stays :
    ∃ s t : State, s.Inv ∧ s.call = .error ∧ step s = .next t ∧ s.NoStartOrReset := by
  obtain ⟨t, e, -⟩ := step_to { errorState with inputs := [.command 0x000#10 0] } (fun t => t.call = .error) (by decide)
  refine ⟨_, t, error_inv _, rfl, e, ?_⟩
  intro h hh
  simp only [List.head?_cons, Option.mem_def, Option.some.injEq] at hh
  subst hh
  refine ⟨by simp, fun w c e => ?_⟩
  cases e
  decide

theorem witness_ErrorLeftOnlyByStartOrReset_leaves :
    ∃ s t : State, s.Inv ∧ s.call = .error ∧ step s = .next t ∧ t.call ≠ .error := by
  obtain ⟨t, e, h⟩ := step_to { errorState with inputs := [.reset] } (fun t => t.call ≠ .error) (by decide)
  exact ⟨_, t, error_inv _, rfl, e, h⟩

theorem witness_OnlyNamedWritersOfState : ∃ s t : State, s.Inv ∧ step s = .next t ∧ t.call ≠ s.call := by
  obtain ⟨s, t, hi, hs, e, h⟩ := witness_ErrorLeftOnlyByStartOrReset_leaves
  exact ⟨s, t, hi, e, by rwa [hs]⟩

theorem witness_OnlyNamedWritersOfOlen_set :
    ∃ s t : State, s.Inv ∧ step s = .next t ∧ s.olen = false ∧ t.olen = true := by
  obtain ⟨t, e, h⟩ := step_to (withCommand (openState 2#3 7#5 1 2) 0x2FF#10 0) (fun t => t.olen = true) (by decide)
  exact ⟨_, t, ⟨by decide, by decide, by decide, by decide, by decide, by decide, by decide, by decide⟩, e, rfl, h⟩

theorem witness_OnlyNamedWritersOfOlen_clear :
    ∃ s t : State, s.Inv ∧ step s = .next t ∧ s.olen = true ∧ t.olen = false := by
  obtain ⟨t, e, h⟩ := step_to { errorState with inputs := [.reset] } (fun t => t.olen = false) (by decide)
  exact ⟨_, t, error_inv _, e, rfl, h⟩

theorem witness_OnlyStartAndResetWriteCap_start : ∃ s t, exec .start s = .next t ∧ t.cap = 8 :=
  ⟨{ errorState with capIn := 8 }, _, execStart_of ⟨by decide, by decide⟩ (by decide), rfl⟩

theorem open_end_no_start : (withCommand (openState 2#3 7#5 1 8) 0x300#10 4).NoStartOrReset := by
  intro h hh
  simp only [withCommand, List.head?_cons, Option.mem_def, Option.some.injEq] at hh
  subst hh
  refine ⟨by simp, fun w c e => ?_⟩
  cases e
  decide

theorem witness_OnlyStartAndResetWriteCap_other :
    ∃ s t : State, s.NoStartOrReset ∧ step s = .next t ∧ t.call = .done := by
  obtain ⟨t, e, h⟩ := step_to (withCommand (openState 2#3 7#5 1 8) 0x300#10 4) (fun t => t.call = .done) (by decide)
  exact ⟨_, t, open_end_no_start, e, h⟩

theorem witness_OnlyNamedWritersOfCarry :
    ∃ s t : State, s.NoStartOrReset ∧ step s = .next t ∧
      ∀ w c rest d, s.inputs = .command w c :: rest → decode w ≠ .byte d := by
  obtain ⟨t, e, -⟩ := step_to (withCommand (openState 2#3 7#5 1 8) 0x300#10 4) (fun t => t.call = .done) (by decide)
  refine ⟨_, t, open_end_no_start, e, ?_⟩
  intro w c rest d h
  cases h
  rw [decode_end_word]
  simp

theorem witness_legal_carry : ∃ (r : BitVec 3) (c : BitVec 5), 1 ≤ r.toNat ∧ r.toNat ≤ 5 ∧ c.toNat < 2 ^ (5 - r.toNat) ∧
    r.toNat ≤ 3 ∧ c ≠ 0#5 := ⟨1#3, 15#5, by decide⟩

theorem witness_FirstIndexPacksExactly : ∃ (r : BitVec 3) (c : BitVec 5), 1 ≤ r.toNat ∧ r.toNat ≤ 5 ∧
    c.toNat < 2 ^ (5 - r.toNat) ∧ r = 5#3 := ⟨5#3, 0#5, by decide⟩

theorem witness_SecondSymbolFromByte : ∃ r : BitVec 3, 1 ≤ r.toNat ∧ r.toNat ≤ 5 ∧ ¬ r.toNat ≤ 3 := ⟨4#3, by decide⟩

theorem witness_ExtractedCarryIsHighBits : ∃ r : BitVec 3, 1 ≤ r.toNat ∧ r.toNat ≤ 5 := ⟨5#3, by decide⟩

theorem witness_NextCarryIsLegal : ∃ r : BitVec 3, 1 ≤ r.toNat ∧ r.toNat ≤ 5 := ⟨1#3, by decide⟩

theorem witness_TailIndexHighBitsZero : ∃ (r : BitVec 3) (c : BitVec 5), 1 ≤ r.toNat ∧ r.toNat ≤ 5 ∧
    c.toNat < 2 ^ (5 - r.toNat) := ⟨2#3, 7#5, by decide⟩

/-- A call from ERROR with a command still to come after it. -/
def callState (cap : Nat) (bs : List Byte) : State :=
  { errorState with inputs := callInputs 0 cap bs ++ [.command 0x000#10 0] }

theorem callState_admitted (cap : Nat) (bs : List Byte) : (callState cap bs).Admitted :=
  ⟨errorState_inv.carry, errorState_inv.capacity⟩

theorem witness_EncodeContract_fits :
    (callState 4 [0xFF#8, 0xFF#8]).Admitted ∧ (callState 4 [0xFF#8, 0xFF#8]).bufferHolds 4 = true ∧
      (callState 4 [0xFF#8, 0xFF#8]).inputs = callInputs 0 4 [0xFF#8, 0xFF#8] ++ [.command 0x000#10 0] ∧
      requiredLength [0xFF#8, 0xFF#8].length ≤ 4 :=
  ⟨callState_admitted _ _, by decide, rfl, by decide⟩

theorem witness_EncodeContract_short :
    (callState 3 [0xFF#8, 0xFF#8]).Admitted ∧ (callState 3 [0xFF#8, 0xFF#8]).bufferHolds 3 = true ∧
      (callState 3 [0xFF#8, 0xFF#8]).inputs = callInputs 0 3 [0xFF#8, 0xFF#8] ++ [.command 0x000#10 0] ∧
      3 < requiredLength [0xFF#8, 0xFF#8].length :=
  ⟨callState_admitted _ _, by decide, rfl, by decide⟩

theorem witness_ResultOfSuccessfulCall :
    (callState 4 [0xFF#8, 0xFF#8]).Admitted ∧ (callState 4 [0xFF#8, 0xFF#8]).bufferHolds 4 = true ∧
      requiredLength [0xFF#8, 0xFF#8].length ≤ 4 :=
  ⟨callState_admitted _ _, by decide, by decide⟩

/-- An empty call runs to a next state. -/
theorem witness_CallSucceedsIffCapSuffices :
    ∃ (s t : State) (cap : Nat) (bs : List Byte) (rest : List HostInput), s.Admitted ∧ s.bufferHolds cap = true ∧
      s.inputs = callInputs 0 cap bs ++ rest ∧ Host.Core.run core (bs.length + 2) s = .next t := by
  obtain ⟨t, e, -⟩ := nextIs_elim
    (o := Host.Core.run core 2 (callState 0 [])) (p := fun t => t.call = .done) (by decide)
  exact ⟨_, t, 0, [], _, callState_admitted _ _, by decide, rfl, e⟩

/-- R134: with cap 2 the second of three bytes fails, with cap 4 END does (vectors X2, X4). -/
theorem witness_FailurePosition :
    (callState 2 [0xFF#8, 0xFF#8, 0xFF#8]).Admitted ∧ (callState 2 [0xFF#8, 0xFF#8, 0xFF#8]).bufferHolds 2 = true ∧
      (1 ≤ 2 ∧ 2 ≤ 3 ∧ 8 * (2 - 1) / 5 ≤ 2 ∧ 2 < 8 * 2 / 5) ∧
      (callState 4 [0xFF#8, 0xFF#8, 0xFF#8]).bufferHolds 4 = true ∧ (4 = 8 * 3 / 5 ∧ 8 * 3 % 5 ≠ 0) :=
  ⟨callState_admitted _ _, by decide, by decide, by decide, by decide⟩

theorem witness_EmptyInputSucceeds :
    (callState 0 []).Admitted ∧ (callState 0 []).bufferHolds 0 = true ∧
      (callState 0 []).inputs = callInputs 0 0 [] ++ [.command 0x000#10 0] :=
  ⟨callState_admitted _ _, by decide, rfl⟩

theorem witness_PhaseLaw :
    ∃ s : State, s.Admitted ∧ s.bufferHolds 3 = true ∧
      s.inputs = openCallInputs 0 3 [0xFF#8, 0xFF#8] ++ [.command 0x300#10 0] ∧ 8 * [0xFF#8, 0xFF#8].length / 5 ≤ 3 :=
  ⟨{ errorState with inputs := openCallInputs 0 3 [0xFF#8, 0xFF#8] ++ [.command 0x300#10 0] },
    ⟨by decide, by decide⟩, by decide, rfl, by decide⟩

theorem witness_SymbolBitsAreStreamBits : ∃ (bs : List Byte) (i b : Nat), i < bs.length ∧ b < 8 ∧ 8 * bs.length ≤ 16 :=
  ⟨[0xFF#8, 0xFF#8], 1, 7, by decide⟩

/-- A host write beyond `cap`, and one into the open call's cells on each side of `wptr`. -/
theorem witness_HostWriteOutsideCall :
    ¬ ((openState 2#3 7#5 1 8).call = .busy ∧ 8 < (openState 2#3 7#5 1 8).cap) := by decide

theorem witness_HostWriteRace :
    (openState 2#3 7#5 1 8).call = .busy ∧ 0 < (openState 2#3 7#5 1 8).cap ∧ 0 < (openState 2#3 7#5 1 8).wptr ∧
      7 < (openState 2#3 7#5 1 8).cap ∧ (openState 2#3 7#5 1 8).wptr ≤ 7 := by decide

theorem witness_LendBuffer :
    ¬ ((openState 2#3 7#5 1 8).call = .busy ∧ 8 < (openState 2#3 7#5 1 8).cap) ∧
      ((openState 2#3 7#5 1 8).call = .busy ∧ 7 < (openState 2#3 7#5 1 8).cap) := by decide

/-! ### Two instances -/

/-- Two busy instances side by side: cells 0 to 7 and cells 8 to 15. -/
def twoBusy (base : Nat) (is : List PlatformInput) : Platform where
  encoders := [{ base := 0, block := openState 2#3 7#5 1 8 }, { base := base, block := openState 5#3 0#5 0 8 }]
  mem := []
  draws := 0
  inputs := is

/-- One busy instance on cells 8 to 15 and one at reset whose buffer is placed at `base`. -/
def oneBusy (base : Nat) (is : List PlatformInput) : Platform where
  encoders := [{ base := base, block := State.reset }, { base := 8, block := openState 5#3 0#5 0 8 }]
  mem := []
  draws := 0
  inputs := is

theorem witness_InstancesDoNotInteract :
    ∃ (p q : Platform) (h : HostInput) (f : Encoder), p.inputs = .toEncoder 0 h :: [] ∧
      (∃ w c, h = .command w c) ∧ p.step = .next q ∧ p.encoders[1]? = some f ∧ f.claims 8 = true :=
  ⟨twoBusy 8 [.toEncoder 0 (.command 0x000#10 0)], _, _, _, rfl, ⟨_, _, rfl⟩, by rfl, rfl, by decide⟩

theorem witness_OverlappingBuffersRefused :
    ∃ e f, (twoBusy 7 []).encoders[0]? = some e ∧ (twoBusy 7 []).encoders[1]? = some f ∧ e.claims 7 = true ∧
      f.claims 7 = true :=
  ⟨_, _, rfl, rfl, by decide, by decide⟩

theorem witness_StartIntoOwnedCellsRefused :
    ∃ p e f, p = oneBusy 1 [.toEncoder 0 (.command 0x100#10 8)] ∧ p.inputs = .toEncoder 0 (.command 0x100#10 8) :: [] ∧
      p.encoders[0]? = some e ∧ p.encoders[1]? = some f ∧
      decode 0x100#10 = .start ∧ p.admitted = true ∧ e.block.carryLegal = true ∧
      e.block.capacityTrue = true ∧ e.block.bufferHolds 8 = true ∧ f.claims 8 = true ∧ e.base ≤ 8 ∧ 8 < e.base + 8 :=
  ⟨_, _, _, rfl, rfl, rfl, rfl, by decide, by decide, by decide, by decide, by decide, by decide, by decide, by decide⟩

theorem witness_PlatformRunsBlockCommand :
    ∃ (p : Platform) (e : Encoder) (t : State), p.inputs = .toEncoder 0 (.command 0x25A#10 0) :: [] ∧ p.admitted = true ∧
      p.encoders[0]? = some e ∧ decode 0x25A#10 ≠ .start ∧
      exec (decode 0x25A#10) { p.load e with capIn := 0 } = .next t ∧ t.wptr = 3 :=
  ⟨twoBusy 8 [.toEncoder 0 (.command 0x25A#10 0)], _, _, rfl, by decide, rfl, by decide,
    execByte_busy _ ⟨by decide, by decide⟩ rfl, by decide⟩

/-- A START of cells 0 to 7 beside a busy instance that owns cells 8 to 15. -/
theorem witness_PlatformRunsBlockCommand_start :
    ∃ (p : Platform) (e : Encoder) (t : State), p.inputs = .toEncoder 0 (.command 0x100#10 8) :: [] ∧ p.admitted = true ∧
      p.encoders[0]? = some e ∧ decode 0x100#10 = .start ∧
      (∀ (j : Nat) (f : Encoder) (a : Nat), j ≠ 0 → p.encoders[j]? = some f → f.claims a = true →
        ¬ (e.base ≤ a ∧ a < e.base + 8)) ∧
      exec (decode 0x100#10) { p.load e with capIn := 8 } = .next t ∧ t.call = .busy := by
  refine ⟨oneBusy 0 [.toEncoder 0 (.command 0x100#10 8)], _, _, rfl, by decide, rfl, by decide, ?_,
    execStart_of ⟨by decide, by decide⟩ rfl, rfl⟩
  intro j f a hj hf hc
  match j, hj, hf with
  | 1, _, hf =>
    cases hf
    have := (Encoder.claims_iff _ _).mp hc
    simp only at this ⊢
    omega

theorem witness_PlatformStepStaysAdmitted : ∃ p q : Platform, p.step = .next q ∧ q.admitted = true :=
  ⟨twoBusy 8 [], _, by rfl, by decide⟩

theorem witness_AssemblerWords : (255 : Nat) < 256 := by decide

end Sys2Proof.Tests
end

/-! PROOFS. The numbers of the block fit CAP_W bits (00_scope.md R5): each operation keeps `State.FitsWidth`, so each step
does. The bound on `wptr` comes from R88: a symbol is written only below `cap`. -/

namespace Sys2Proof.Machine

section
variable {capW : Nat} {s t : State}

theorem State.FitsWidth.openCall (h : s.FitsWidth capW) : (openCall s).FitsWidth capW :=
  ⟨h.capIn, h.inputs, h.capIn, Nat.two_pow_pos capW, h.port⟩

theorem State.FitsWidth.resetRegisters (h : s.FitsWidth capW) : (resetRegisters s).FitsWidth capW :=
  ⟨h.capIn, h.inputs, Nat.two_pow_pos capW, Nat.two_pow_pos capW, h.port⟩

theorem State.FitsWidth.latchCarry (h : s.FitsWidth capW) (r : BitVec 3) (d : Byte) :
    (latchCarry r d s).FitsWidth capW :=
  ⟨h.capIn, h.inputs, h.cap, h.wptr, h.port⟩

theorem State.FitsWidth.closeCall (h : s.FitsWidth capW) : (closeCall s).FitsWidth capW :=
  ⟨h.capIn, h.inputs, h.cap, h.wptr, h.port⟩

theorem State.FitsWidth.raiseInvalidOutputLength (h : s.FitsWidth capW) :
    (raiseInvalidOutputLength s).FitsWidth capW :=
  ⟨h.capIn, h.inputs, h.cap, h.wptr, h.port⟩

theorem State.FitsWidth.hostWrite (h : s.FitsWidth capW) (a : Nat) (v : Byte) : (hostWrite a v s).FitsWidth capW :=
  ⟨by simpa using h.capIn, by simpa using h.inputs, by simpa using h.cap, by simpa using h.wptr,
    by simpa using h.port⟩

theorem State.FitsWidth.lend (h : s.FitsWidth capW) (n : Nat) : { s with obufLen := some n }.FitsWidth capW :=
  ⟨h.capIn, h.inputs, h.cap, h.wptr, h.port⟩

theorem State.FitsWidth.driveCapIn (h : s.FitsWidth capW) {c : Nat} (hc : c < 2 ^ capW) :
    { s with capIn := c }.FitsWidth capW :=
  ⟨hc, h.inputs, h.cap, h.wptr, h.port⟩

/-- Taking an input off the queue leaves no larger number, and the write port quiet. -/
theorem State.FitsWidth.dequeue (h : s.FitsWidth capW) {i : HostInput} {rest : List HostInput}
    (hi : s.inputs = i :: rest) : { s with inputs := rest, obufPort := [] }.FitsWidth capW :=
  ⟨h.capIn, fun w c hm => h.inputs w c (hi ▸ List.mem_cons_of_mem i hm), h.cap, h.wptr, by simp⟩

/-- R88: a run of symbols with room below `cap` ends with `wptr` at most `cap`, and every address it puts on the port is
below that. An empty run moves nothing. -/
theorem State.FitsWidth.wrote {is : List SymbolIndex} (h : s.FitsWidth capW) (hw : s.Wrote is t)
    (room : is = [] ∨ s.wptr + is.length ≤ s.cap) : t.FitsWidth capW := by
  have hcap := h.cap
  have hend : s.wptr + is.length < 2 ^ capW := by
    rcases room with rfl | room
    · exact h.wptr
    · omega
  refine ⟨hw.capIn ▸ h.capIn, hw.inputs ▸ h.inputs, hw.cap ▸ hcap, hw.wptr ▸ hend, fun c hc => ?_⟩
  rw [hw.obufPort] at hc
  rcases List.mem_append.mp hc with hold | hnew
  · exact h.port c hold
  · exact (symbolCells_addr hnew).2.trans hend

theorem exec_keeps_fitsWidth {i : Instr} (h : s.FitsWidth capW) (he : exec i s = .next t) : t.FitsWidth capW := by
  rcases exec_cases he with ⟨-, rfl⟩ | ⟨-, is, u, hw, -, -, room, hend⟩
  · exact h.openCall
  · have hu : u.FitsWidth capW := h.wrote hw room
    rcases hend with ⟨rfl, -⟩ | ⟨-, d, -, rfl⟩ | ⟨-, -, rfl⟩ | ⟨-, -, -, rfl⟩
    · exact hu
    · exact hu.latchCarry _ d
    · exact hu.closeCall
    · exact hu.raiseInvalidOutputLength

theorem step_keeps_fitsWidth (h : s.FitsWidth capW) (hs : step s = .next t) : t.FitsWidth capW := by
  rcases step_cases hs with ⟨-, rfl⟩ | ⟨w, c, rest, hi, he⟩ | ⟨rest, hi, rfl⟩ | ⟨n, rest, hi, -, rfl⟩ |
    ⟨a, v, rest, hi, rfl⟩
  · exact ⟨h.capIn, h.inputs, h.cap, h.wptr, by simp⟩
  · have hc : c < 2 ^ capW := h.inputs w c (hi ▸ List.mem_cons_self)
    exact exec_keeps_fitsWidth ((h.dequeue hi).driveCapIn hc) he
  · exact (h.dequeue hi).resetRegisters
  · exact (h.dequeue hi).lend n
  · exact (h.dequeue hi).hostWrite a v

end

/-- Settles O11. The invariant's `wptr ≤ cap` is not needed: a command that writes has room below `cap` for all it
writes (`exec_cases`), and one that writes nothing leaves `wptr` or sets it to 0. -/
theorem stepKeepsCapWidth : Obligations.StepKeepsCapWidth :=
  fun _ _ _ _ h hs => step_keeps_fitsWidth h hs

end Sys2Proof.Machine

/-! PROOFS. The state's rules (10_state.md): each operation keeps the invariant of R30, so each step does and every
state reached from reset has it; which inputs write which register (R21 to R26); the STATUS view (R27); and the refusal
of an illegal carry (93 I4). -/

namespace Sys2Proof.Machine

/-! ### Each operation keeps the invariant -/

/-- Settles O8. -/
theorem resetMeetsInvariant : Obligations.ResetMeetsInvariant where
  carry := by decide
  wptr_le_cap := Nat.le_refl 0
  error_iff_olen := by decide
  idle_clear _ := ⟨rfl, rfl, rfl⟩
  capacity := by decide
  memory := List.Pairwise.nil
  symbols_length := rfl
  races_ahead := by decide

/-- R86: what a byte leaves is a legal carry again. -/
theorem latchCarry_carryLegal {r : BitVec 3} (h1 : 1 ≤ r.toNat) (h5 : r.toNat ≤ 5) (d : Byte) (s : State) :
    (latchCarry r d s).carryLegal = true := by
  rw [State.carryLegal_iff, latchCarry_remain, latchCarry_current, nextRemain_toNat h1 h5]
  by_cases h3 : r.toNat ≤ 3
  · rw [if_pos h3, nextCurrent_toNat_two d ((second_iff r).mpr h3), Nat.div_lt_iff_lt_mul (Nat.two_pow_pos _),
      ← Nat.pow_add, show 5 - (2 + r.toNat) + (r.toNat + 5) = 8 by omega]
    exact ⟨by omega, by omega, d.isLt⟩
  · have hs : second r = false := Bool.eq_false_iff.mpr (mt (second_iff r).mp h3)
    rw [if_neg h3, nextCurrent_toNat_one d hs, Nat.div_lt_iff_lt_mul (Nat.two_pow_pos _), ← Nat.pow_add,
      show 5 - (r.toNat - 3) + r.toNat = 8 by omega]
    exact ⟨by omega, by omega, d.isLt⟩

section
variable {s t : State}

/-- An open call has not failed, so OLEN is 0. -/
theorem State.Inv.olen_of_busy (h : s.Inv) (hb : s.call = .busy) : s.olen = false :=
  Bool.eq_false_iff.mpr fun ho => by simpa [hb] using h.error_iff_olen.mpr ho

/-- The invariant says nothing of the ports and of the inputs to come. -/
theorem State.Inv.withPorts (h : s.Inv) (is : List HostInput) (ws : List Host.Cell) (c : Nat) :
    { s with inputs := is, obufPort := ws, capIn := c }.Inv :=
  ⟨h.carry, h.wptr_le_cap, h.error_iff_olen, h.idle_clear, h.capacity, h.memory, h.symbols_length, h.races_ahead⟩

theorem State.Inv.openCall (h : s.Inv) (hb : s.bufferHolds s.capIn = true) : (openCall s).Inv where
  carry := resetMeetsInvariant.carry
  wptr_le_cap := Nat.zero_le _
  error_iff_olen := by simp
  idle_clear := by simp
  capacity := (State.capacityTrue_iff _).mpr fun _ => hb
  memory := h.memory
  symbols_length := rfl
  races_ahead := by simp

theorem State.Inv.resetRegisters (h : s.Inv) : (resetRegisters s).Inv where
  carry := resetMeetsInvariant.carry
  wptr_le_cap := Nat.le_refl 0
  error_iff_olen := by simp
  idle_clear _ := ⟨rfl, rfl, rfl⟩
  capacity := (State.capacityTrue_iff _).mpr (by simp)
  memory := h.memory
  symbols_length := rfl
  races_ahead := by simp

theorem State.Inv.latchCarry (h : s.Inv) (hb : s.call = .busy) {r : BitVec 3} (h1 : 1 ≤ r.toNat) (h5 : r.toNat ≤ 5)
    (d : Byte) : (latchCarry r d s).Inv where
  carry := latchCarry_carryLegal h1 h5 d s
  wptr_le_cap := h.wptr_le_cap
  error_iff_olen := h.error_iff_olen
  idle_clear := by simp [hb]
  capacity := h.capacity
  memory := h.memory
  symbols_length := h.symbols_length
  races_ahead := h.races_ahead

theorem State.Inv.closeCall (h : s.Inv) (hb : s.call = .busy) : (closeCall s).Inv where
  carry := h.carry
  wptr_le_cap := h.wptr_le_cap
  error_iff_olen := by simp [h.olen_of_busy hb]
  idle_clear := by simp
  capacity := (State.capacityTrue_iff _).mpr (by simp)
  memory := h.memory
  symbols_length := h.symbols_length
  races_ahead := by simp

theorem State.Inv.raiseInvalidOutputLength (h : s.Inv) : (raiseInvalidOutputLength s).Inv where
  carry := h.carry
  wptr_le_cap := h.wptr_le_cap
  error_iff_olen := by simp
  idle_clear := by simp
  capacity := (State.capacityTrue_iff _).mpr (by simp)
  memory := h.memory
  symbols_length := h.symbols_length
  races_ahead := by simp

/-- R173: a buffer at least as long as an open call's capacity. -/
theorem State.Inv.lend (h : s.Inv) {n : Nat} (hn : ¬ (s.call = .busy ∧ n < s.cap)) :
    { s with obufLen := some n }.Inv where
  carry := h.carry
  wptr_le_cap := h.wptr_le_cap
  error_iff_olen := h.error_iff_olen
  idle_clear := h.idle_clear
  capacity := (State.capacityTrue_iff _).mpr fun hb => decide_eq_true (Nat.not_lt.mp fun hlt => hn ⟨hb, hlt⟩)
  memory := h.memory
  symbols_length := h.symbols_length
  races_ahead := h.races_ahead

/-- R176: a host write moves no register, and a cell it newly races for lies ahead of `wptr`. -/
theorem State.Inv.hostWrite (h : s.Inv) (a : Nat) (v : Byte) : (hostWrite a v s).Inv where
  carry := by
    rw [State.carryLegal_iff, hostWrite_remain, hostWrite_current]
    exact (State.carryLegal_iff s).mp h.carry
  wptr_le_cap := by simpa using h.wptr_le_cap
  error_iff_olen := by simpa using h.error_iff_olen
  idle_clear := by simpa using h.idle_clear
  capacity := by
    simpa [State.capacityTrue_iff, State.bufferHolds] using (State.capacityTrue_iff s).mp h.capacity
  memory := hostWrite_wf a v h.memory
  symbols_length := by simpa using h.symbols_length
  races_ahead hb b hm := by
    rw [hostWrite_call] at hb
    rw [hostWrite_wptr]
    exact (hostWrite_raced a v hm).elim (h.races_ahead hb b) id

/-- A run of symbols with room below `cap`, which is written in an open call only. The races of the cells written are
settled, so those left lie beyond the run. -/
theorem State.Inv.wrote {is : List SymbolIndex} (h : s.Inv) (hw : s.Wrote is t) (hm : s.obuf.wf → t.obuf.wf)
    (room : s.wptr + is.length ≤ s.cap) (hb : is = [] ∨ s.call = .busy) : t.Inv where
  carry := by
    rw [State.carryLegal_iff, hw.remain, hw.current]
    exact (State.carryLegal_iff s).mp h.carry
  wptr_le_cap := by rw [hw.wptr, hw.cap]; exact room
  error_iff_olen := by rw [hw.call, hw.olen]; exact h.error_iff_olen
  idle_clear := by
    rw [hw.call, hw.wptr, hw.remain, hw.current]
    rcases hb with rfl | hb
    · exact h.idle_clear
    · simp [hb]
  capacity := by
    rw [State.capacityTrue_iff, hw.call, hw.cap, State.bufferHolds, hw.obufLen]
    exact (State.capacityTrue_iff s).mp h.capacity
  memory := hm h.memory
  symbols_length := by rw [hw.symbols, hw.wptr, List.length_append, List.length_map, h.symbols_length]
  races_ahead hbusy a ha := by
    rw [hw.raced, List.mem_filter, decide_eq_true_eq] at ha
    obtain ⟨hmem, hbeyond⟩ := ha
    have hahead := h.races_ahead (hw.call ▸ hbusy) a hmem
    rw [hw.wptr]
    omega

theorem exec_keeps_inv {i : Instr} (h : s.Inv) (he : exec i s = .next t) : t.Inv := by
  rcases exec_cases he with ⟨rfl, rfl⟩ | ⟨-, is, u, hw, hm, -, hroom, hend⟩
  · obtain ⟨-, hbuf, -⟩ := execStart_next he
    exact h.openCall hbuf
  · have room : s.wptr + is.length ≤ s.cap := hroom.elim (fun e => by simpa [e] using h.wptr_le_cap) id
    have hu : is = [] ∨ s.call = .busy → u.Inv := h.wrote hw hm room
    rcases hend with ⟨rfl, rfl⟩ | ⟨hb, d, -, rfl⟩ | ⟨hb, -, rfl⟩ | ⟨hb, -, -, rfl⟩
    · exact hu (.inl rfl)
    · obtain ⟨h1, h5, -⟩ := (State.carryLegal_iff s).mp h.carry
      exact (hu (.inr hb)).latchCarry (hw.call.trans hb) h1 h5 d
    · exact (hu (.inr hb)).closeCall (hw.call.trans hb)
    · exact (hu (.inr hb)).raiseInvalidOutputLength

theorem step_keeps_inv (h : s.Inv) (hs : step s = .next t) : t.Inv := by
  rcases step_cases hs with ⟨-, rfl⟩ | ⟨w, c, rest, -, he⟩ | ⟨rest, -, rfl⟩ | ⟨n, rest, -, hn, rfl⟩ |
    ⟨a, v, rest, -, rfl⟩
  · exact h.withPorts _ _ _
  · exact exec_keeps_inv (h.withPorts _ _ _) he
  · exact (h.withPorts _ _ _).resetRegisters
  · exact (h.withPorts rest [] s.capIn).lend hn
  · exact (h.withPorts _ _ _).hostWrite a v

/-- What every step keeps holds wherever a run ends. -/
theorem run_keeps {P : State → Prop} (hP : ∀ s t, P s → step s = .next t → P t) (k : Nat) (h : P s)
    (hr : Host.Core.run core k s = .next t) : P t := by
  induction k generalizing s with
  | zero => cases hr; exact h
  | succ k ih =>
    cases hs : step s with
    | next u => rw [run_succ k hs] at hr; exact ih (hP s u h hs) hr
    | fault f => exact nomatch f
    | refused r =>
      have hc : core.step s = .refused r := hs
      simp only [Host.Core.run, hc] at hr
      cases hr

end

/-- Settles O9. -/
theorem stepKeepsInvariant : Obligations.StepKeepsInvariant := fun _ _ => step_keeps_inv

/-- Settles O10: the invariant holds at reset, whatever the inputs to come, and every step keeps it. -/
theorem reachableStatesSatisfyR30 : Obligations.ReachableStatesSatisfyR30 := by
  intro is k t hr
  have hreset : { State.reset with inputs := is }.Inv := resetMeetsInvariant.withPorts is [] 0
  have ht : t.Inv := run_keeps stepKeepsInvariant k hreset hr
  obtain ⟨h1, h5, hlt⟩ := (State.carryLegal_iff t).mp ht.carry
  exact ⟨⟨h1, h5⟩, hlt, ht.wptr_le_cap, ht.error_iff_olen, ht.idle_clear⟩

/-! ### Who writes which register -/

section
variable {s t : State} {i : Instr} {w : CmdWord} {c : Nat} {rest : List HostInput}

theorem State.NoStartOrReset.decode_ne_start (h : s.NoStartOrReset) (hi : s.inputs = .command w c :: rest) :
    decode w ≠ .start :=
  (h (.command w c) (by simp [hi])).2 w c rfl

theorem State.NoStartOrReset.not_reset (h : s.NoStartOrReset) : s.inputs ≠ .reset :: rest :=
  fun hi => (h .reset (by simp [hi])).1 rfl

/-- A command writes STATE and OLEN in one of three ways (R21, R26): START, the end of an open call, or its error. -/
theorem exec_call_olen_cases (he : exec i s = .next t) :
    (t.call = s.call ∧ t.olen = s.olen) ∨
    (t.call = .busy ∧ t.olen = false ∧ i = .start) ∨
    (t.call = .done ∧ t.olen = s.olen ∧ s.call = .busy ∧ i = .endCall) ∨
    (t.call = .error ∧ t.olen = true ∧ s.call = .busy) := by
  rcases exec_cases he with ⟨hi, rfl⟩ | ⟨-, is, u, hw, -, -, -, hend⟩
  · exact .inr (.inl ⟨rfl, rfl, hi⟩)
  · rcases hend with ⟨rfl, -⟩ | ⟨-, d, -, rfl⟩ | ⟨hb, hi, rfl⟩ | ⟨hb, -, -, rfl⟩
    · exact .inl ⟨hw.call, hw.olen⟩
    · exact .inl ⟨hw.call, hw.olen⟩
    · exact .inr (.inr (.inl ⟨rfl, hw.olen, hb, hi⟩))
    · exact .inr (.inr (.inr ⟨rfl, rfl, hb⟩))

/-- A step writes STATE and OLEN as its command does, or sets both to 0 at reset. -/
theorem step_call_olen_cases (hs : step s = .next t) :
    (t.call = s.call ∧ t.olen = s.olen) ∨
    (t.call = .busy ∧ t.olen = false ∧ ∃ w c rest, s.inputs = .command w c :: rest ∧ decode w = .start) ∨
    (t.call = .done ∧ t.olen = s.olen ∧ s.call = .busy ∧
      ∃ w c rest, s.inputs = .command w c :: rest ∧ decode w = .endCall) ∨
    (t.call = .error ∧ t.olen = true ∧ s.call = .busy) ∨
    (t.call = .idle ∧ t.olen = false ∧ ∃ rest, s.inputs = .reset :: rest) := by
  rcases step_cases hs with ⟨-, rfl⟩ | ⟨w, c, rest, hi, he⟩ | ⟨rest, hi, rfl⟩ | ⟨n, rest, -, -, rfl⟩ |
    ⟨a, v, rest, -, rfl⟩
  · exact .inl ⟨rfl, rfl⟩
  · rcases exec_call_olen_cases he with hkeep | ⟨hc, ho, hd⟩ | ⟨hc, ho, hb, hd⟩ | herr
    · exact .inl hkeep
    · exact .inr (.inl ⟨hc, ho, w, c, rest, hi, hd⟩)
    · exact .inr (.inr (.inl ⟨hc, ho, hb, w, c, rest, hi, hd⟩))
    · exact .inr (.inr (.inr (.inl herr)))
  · exact .inr (.inr (.inr (.inr ⟨rfl, rfl, rest, hi⟩)))
  · exact .inl ⟨rfl, rfl⟩
  · exact .inl ⟨by simp, by simp⟩

theorem exec_cap (he : exec i s = .next t) (hi : i ≠ .start) : t.cap = s.cap := by
  rcases exec_cases he with ⟨rfl, -⟩ | ⟨-, is, u, hw, -, -, -, hend⟩
  · exact absurd rfl hi
  · rcases hend with ⟨rfl, -⟩ | ⟨-, d, -, rfl⟩ | ⟨-, -, rfl⟩ | ⟨-, -, -, rfl⟩ <;> exact hw.cap

theorem exec_carry (he : exec i s = .next t) (hi : i ≠ .start) (hd : ∀ d, i ≠ .byte d) :
    t.remain = s.remain ∧ t.current = s.current := by
  rcases exec_cases he with ⟨rfl, -⟩ | ⟨-, is, u, hw, -, -, -, hend⟩
  · exact absurd rfl hi
  · rcases hend with ⟨rfl, -⟩ | ⟨-, d, rfl, -⟩ | ⟨-, -, rfl⟩ | ⟨-, -, -, rfl⟩
    · exact ⟨hw.remain, hw.current⟩
    · exact absurd rfl (hd d)
    · exact ⟨hw.remain, hw.current⟩
    · exact ⟨hw.remain, hw.current⟩

end

/-- Settles O32. An open call has OLEN 0 by the invariant, so its error sets it. -/
theorem onlyNamedWritersOfState : Obligations.OnlyNamedWritersOfState := by
  intro s t h hs
  rcases step_call_olen_cases hs with ⟨hkeep, -⟩ | ⟨hc, -, hi⟩ | ⟨hc, -, hb, hi⟩ | ⟨hc, ho, hb⟩ | ⟨hc, -, hi⟩
  · exact .inl hkeep
  · exact .inr (.inl ⟨hc, hi⟩)
  · exact .inr (.inr (.inl ⟨hc, hb, hi⟩))
  · exact .inr (.inr (.inr (.inl ⟨hc, hb, h.olen_of_busy hb, ho⟩)))
  · exact .inr (.inr (.inr (.inr ⟨hc, hi⟩)))

/-- Settles O33. -/
theorem onlyNamedWritersOfOlen : Obligations.OnlyNamedWritersOfOlen := by
  intro s t _ hs
  rcases step_call_olen_cases hs with ⟨-, ho⟩ | ⟨-, ho, w, c, rest, hi, hd⟩ | ⟨-, ho, -⟩ | ⟨hc, ho, hb⟩ |
    ⟨-, ho, rest, hi⟩
  · exact ⟨fun h0 h1 => by simp [ho, h0] at h1, fun h1 h0 => by simp [ho, h1] at h0⟩
  · exact ⟨fun _ h1 => by simp [ho] at h1, fun _ _ hn => hn.decode_ne_start hi hd⟩
  · exact ⟨fun h0 h1 => by simp [ho, h0] at h1, fun h1 h0 => by simp [ho, h1] at h0⟩
  · exact ⟨fun _ _ => ⟨hb, hc⟩, fun _ h0 => by simp [ho] at h0⟩
  · exact ⟨fun _ h1 => by simp [ho] at h1, fun _ _ hn => hn.not_reset hi⟩

/-- Settles O34. -/
theorem onlyStartAndResetWriteCap : Obligations.OnlyStartAndResetWriteCap := by
  refine ⟨fun s t he => ?_, fun s t hn hs => ?_⟩
  · obtain ⟨-, -, rfl⟩ := execStart_next he
    rfl
  · rcases step_cases hs with ⟨-, rfl⟩ | ⟨w, c, rest, hi, he⟩ | ⟨rest, hi, -⟩ | ⟨n, rest, -, -, rfl⟩ |
      ⟨a, v, rest, -, rfl⟩
    · rfl
    · have hcap := exec_cap he (hn.decode_ne_start hi)
      exact hcap
    · exact absurd hi hn.not_reset
    · rfl
    · simp

/-- Settles O35. -/
theorem onlyNamedWritersOfCarry : Obligations.OnlyNamedWritersOfCarry := by
  intro s t hn hs hbyte
  rcases step_cases hs with ⟨-, rfl⟩ | ⟨w, c, rest, hi, he⟩ | ⟨rest, hi, -⟩ | ⟨n, rest, -, -, rfl⟩ |
    ⟨a, v, rest, -, rfl⟩
  · exact ⟨rfl, rfl⟩
  · have hcarry := exec_carry he (hn.decode_ne_start hi) fun d => hbyte w c rest d hi
    exact hcarry
  · exact absurd hi hn.not_reset
  · exact ⟨rfl, rfl⟩
  · simp

/-! ### STATUS, and the refusal of an illegal carry -/

section
variable {s : State}

theorem State.Inv.olen_eq (h : s.Inv) : s.olen = decide (s.call = .error) := by
  rw [Bool.eq_iff_iff, decide_eq_true_eq]
  exact h.error_iff_olen.symm

/-- 93 I4: the guard of every command refuses an illegal carry first. -/
theorem onAdmitted_illegal (h : s.carryLegal = false) (k : Host.Outcome State Fault Refusal) :
    onAdmitted s k = .refused .illegalCarry := by
  simp [onAdmitted, h]

theorem exec_illegal (h : s.carryLegal = false) (i : Instr) : exec i s = .refused .illegalCarry := by
  cases i with
  | nop => exact onAdmitted_illegal h _
  | start => exact onAdmitted_illegal h _
  | byte d => exact onAdmitted_illegal h _
  | endCall => exact onAdmitted_illegal h _

end

/-- Settles O12. The invariant fixes OLEN by STATE, so STATUS has one value for each STATE. -/
theorem statusView : Obligations.StatusView := by
  refine ⟨fun s => ?_, fun s h => ?_⟩
  · rw [State.status]
    generalize s.call = q
    generalize s.olen = o
    cases q <;> cases o <;> decide
  · rw [State.status, h.olen_eq]
    cases s.call <;> rfl

/-- Settles O17. -/
theorem illegalCarryRefused : Obligations.IllegalCarryRefused := by
  intro i s h
  refine exec_illegal (Bool.eq_false_iff.mpr fun hc => ?_) i
  obtain ⟨h1, h5, hlt⟩ := (State.carryLegal_iff s).mp hc
  rcases h with h | h | h | h
  · simp [h] at h1
  · simp [h] at h5
  · simp [h] at h5
  · omega

end Sys2Proof.Machine

/-! PROOFS. OBUF and the write port (20_memory.md R41 to R48): what a command writes is a run of symbols from `wptr` on, so
its memory frame, the order and bound of its writes and what a host reads meanwhile are those of `State.Wrote`; and no
command reads OBUF. -/

namespace Sys2Proof.Machine

/-! ### What a run of symbols leaves to read -/

section
variable {s t : State} {is : List SymbolIndex} {a : Nat}

/-- Every address of the run has a cell on the port. -/
theorem exists_mem_symbolCells {b : Nat} (hlo : a ≤ b) (hhi : b < a + is.length) : ∃ c ∈ symbolCells a is, c.1 = b := by
  have hb : b ∈ (symbolCells a is).map Prod.fst := by
    rw [symbolCells_map_fst, List.mem_range'_1]
    exact ⟨hlo, hhi⟩
  exact List.mem_map.mp hb

/-- R41: a cell the port does not name reads as before. -/
theorem State.Wrote.read_unnamed (h : s.Wrote is t) (ha : ∀ c ∈ symbolCells s.wptr is, c.1 ≠ a) :
    t.obuf.read a = s.obuf.read a := by
  refine h.read_other ?_
  by_contra hin
  obtain ⟨c, hc, hca⟩ := exists_mem_symbolCells (is := is) (a := s.wptr) (b := a) (by omega) (by omega)
  exact ha c hc hca

theorem State.hostRead_congr (h : t.obuf.read a = s.obuf.read a) : t.hostRead a = s.hostRead a := by
  simp only [State.hostRead, h]

theorem State.hostRead_of_read {v : Byte} (h : s.obuf.read a = some v) : s.hostRead a = v := by
  simp only [State.hostRead, h, Option.getD_some]

end

/-! ### What a command writes -/

section
variable {i : Instr} {s t : State}

/-- R42, R45: OBUF, the write port and `wptr` after a command are those after a run of at most two symbols, which is empty
or stays below the `cap` of an open call; but START, whose run is empty, sets `wptr` to 0. -/
theorem exec_writes (hx : exec i s = .next t) :
    ∃ is u, s.Wrote is u ∧ t.obuf = u.obuf ∧ t.obufPort = u.obufPort ∧ is.length ≤ 2 ∧
      (is = [] ∨ (s.call = .busy ∧ s.wptr + is.length ≤ s.cap)) ∧
      ((i = .start ∧ is = [] ∧ t.wptr = 0) ∨ (i ≠ .start ∧ t.wptr = u.wptr)) := by
  rcases exec_cases hx with ⟨hi, rfl⟩ | ⟨hi, is, u, hw, -, h2, room, hend⟩
  · exact ⟨[], s, .nil s, rfl, rfl, by simp, .inl rfl, .inl ⟨hi, rfl, rfl⟩⟩
  · rcases hend with ⟨rfl, he⟩ | ⟨hb, d, -, rfl⟩ | ⟨hb, -, rfl⟩ | ⟨hb, -, -, rfl⟩
    · exact ⟨is, t, hw, rfl, rfl, h2, .inl he, .inr ⟨hi, rfl⟩⟩
    all_goals exact ⟨is, u, hw, rfl, rfl, h2, room.imp_right fun hr => ⟨hb, hr⟩, .inr ⟨hi, rfl⟩⟩

/-- R42: a cell outside an open call, or at `cap` or above, is no command's to write. -/
theorem exec_read_outside_call (hx : exec i s = .next t) {a : Nat} (ha : ¬ (s.call = .busy ∧ a < s.cap)) :
    t.obuf.read a = s.obuf.read a := by
  obtain ⟨is, u, hw, hm, -, -, room, -⟩ := exec_writes hx
  rw [hm]
  refine hw.read_other ?_
  rcases room with rfl | ⟨hb, hr⟩
  · simp only [List.length_nil]
    omega
  · have hge : s.cap ≤ a := Nat.not_lt.mp fun hlt => ha ⟨hb, hlt⟩
    omega

end

/-- Settles O22. -/
theorem byteSecondWriteRaises : Obligations.ByteSecondWriteRaises := by
  intro s d hadm hb hroom hr
  obtain ⟨u, hw, -, hu⟩ := consumeByte_two_full d hroom ((second_iff s.remain).mpr hr)
  have hx : exec (.byte d) s = .next (consumeByte d s) := execByte_busy d hadm hb
  exact ⟨u, hw, hx.trans (congrArg _ hu)⟩

/-- Settles O26. -/
theorem writesInOrderBelowCap : Obligations.WritesInOrderBelowCap := by
  intro i s t _ hx
  obtain ⟨is, u, hw, -, hport, h2, room, hend⟩ := exec_writes hx
  refine ⟨symbolCells s.wptr is, hport.trans hw.obufPort, by simpa using h2, ?_, fun c hc => ?_, fun hi => ?_,
    fun hi => ?_⟩
  · rw [symbolCells_map_fst, symbolCells_length]
  · rcases hend with ⟨-, rfl, -⟩ | ⟨hi, -⟩
    · simp at hc
    · have hlt := (symbolCells_addr hc).2
      rw [exec_cap hx hi]
      rcases room with rfl | ⟨-, hr⟩
      · simp at hc
      · omega
  · rcases hend with ⟨hs, -⟩ | ⟨-, hp⟩
    · exact absurd hs hi
    · rw [hp, hw.wptr, symbolCells_length]
  · rcases hend with ⟨-, rfl, hp⟩ | ⟨hs, -⟩
    · exact ⟨hp, rfl⟩
    · exact absurd hi hs

/-- Settles O27. -/
theorem memoryChangesOnlyThroughPort : Obligations.MemoryChangesOnlyThroughPort := by
  intro i s t hx
  obtain ⟨is, u, hw, hm, hport, -⟩ := exec_writes hx
  rw [hm, hport]
  exact ⟨symbolCells s.wptr is, hw.obufPort, fun a ha => hw.read_unnamed ha, fun c hc => hw.read_cell hc⟩

/-- Settles O53. The two values a read may return are equal for a cell not written; the new one is the symbol for a cell
written with no race. -/
theorem readDuringCommand : Obligations.ReadDuringCommand := by
  intro i s t hx
  obtain ⟨ws, hport, hother, hcell⟩ := memoryChangesOnlyThroughPort i s t hx
  refine ⟨ws, hport, fun a v ha => ?_, fun c hc hr v => ?_⟩
  · rw [State.mayReadDuring, State.hostRead_congr (hother a ha), or_self]
  · have hnew : t.obuf.read c.1 = some c.2 := (hcell c hc).resolve_right fun h => hr h.1
    rw [State.mayReadDuring, State.hostRead_of_read hnew]

/-! ### No command reads OBUF -/

/-- The two states are equal but for OBUF. -/
def State.SameButObuf (s s' : State) : Prop := ∃ m, s' = { s with obuf := m }

/-- The two symbol writes end alike, in states equal but for OBUF. -/
inductive Emitted.SameButObuf : Emitted → Emitted → Prop
  | wrote {s s' : State} (h : s.SameButObuf s') : Emitted.SameButObuf (.wrote s) (.wrote s')
  | raised {s s' : State} (h : s.SameButObuf s') : Emitted.SameButObuf (.raised s) (.raised s')

section
variable {s s' : State}

/-- Whether the host has raced for the cell, and who wins, is not read from OBUF. -/
theorem State.SameButObuf.obufWrite (h : s.SameButObuf s') (a : Nat) (v : Byte) :
    (obufWrite a v s).SameButObuf (obufWrite a v s') := by
  obtain ⟨m, rfl⟩ := h
  by_cases hr : a ∈ s.raced
  · simp only [Machine.obufWrite, if_pos hr]
    exact ⟨_, rfl⟩
  · simp only [Machine.obufWrite, if_neg hr]
    exact ⟨_, rfl⟩

theorem State.SameButObuf.emitSymbol (h : s.SameButObuf s') (i : SymbolIndex) :
    (emitSymbol i s).SameButObuf (emitSymbol i s') := by
  have hwrite := h.obufWrite s.wptr (alphabet i)
  obtain ⟨m, rfl⟩ := h
  obtain ⟨m', hm'⟩ := hwrite
  by_cases hc : s.cap ≤ s.wptr
  · rw [emitSymbol_full i hc, emitSymbol_full i (s := { s with obuf := m }) hc]
    exact .raised ⟨m, rfl⟩
  · simp only [Machine.emitSymbol, if_neg hc, hm']
    exact .wrote ⟨m', rfl⟩

theorem State.SameButObuf.latchCarry (h : s.SameButObuf s') (r : BitVec 3) (d : Byte) :
    (latchCarry r d s).SameButObuf (latchCarry r d s') := by
  obtain ⟨m, rfl⟩ := h
  exact ⟨m, rfl⟩

theorem State.SameButObuf.closeCall (h : s.SameButObuf s') : (closeCall s).SameButObuf (closeCall s') := by
  obtain ⟨m, rfl⟩ := h
  exact ⟨m, rfl⟩

theorem State.SameButObuf.remain (h : s.SameButObuf s') : s'.remain = s.remain := by
  obtain ⟨m, rfl⟩ := h
  rfl

theorem State.SameButObuf.current (h : s.SameButObuf s') : s'.current = s.current := by
  obtain ⟨m, rfl⟩ := h
  rfl

theorem State.SameButObuf.consumeByte (h : s.SameButObuf s') (d : Byte) :
    (consumeByte d s).SameButObuf (consumeByte d s') := by
  have h1 := h.emitSymbol (idx1 s.remain s.current d)
  simp only [Machine.consumeByte, h.remain, h.current]
  generalize Machine.emitSymbol (idx1 s.remain s.current d) s = x at h1 ⊢
  generalize Machine.emitSymbol (idx1 s.remain s.current d) s' = y at h1 ⊢
  cases h1 with
  | raised h1 => exact h1
  | @wrote u u' hu =>
    have h2 := hu.emitSymbol (idx2 s.remain d)
    by_cases hs : second s.remain = true
    · simp only [hs, if_true]
      generalize Machine.emitSymbol (idx2 s.remain d) u = x at h2 ⊢
      generalize Machine.emitSymbol (idx2 s.remain d) u' = y at h2 ⊢
      cases h2 with
      | raised h2 => exact h2
      | wrote hv => exact hv.latchCarry s.remain d
    · simp only [hs]
      exact hu.latchCarry s.remain d

theorem State.SameButObuf.flushTail (h : s.SameButObuf s') : (flushTail s).SameButObuf (flushTail s') := by
  have h1 := h.emitSymbol (tailIndex s.current)
  simp only [Machine.flushTail, h.remain, h.current]
  by_cases hp : tailPending s.remain = true
  · simp only [hp, if_true]
    generalize Machine.emitSymbol (tailIndex s.current) s = x at h1 ⊢
    generalize Machine.emitSymbol (tailIndex s.current) s' = y at h1 ⊢
    cases h1 with
    | raised h1 => exact h1
    | wrote hu => exact hu.closeCall
  · simp only [hp]
    exact h.closeCall

end

/-- Settles O29. The guard of a command reads no OBUF cell, and neither does its body. -/
theorem commandsNeverReadObuf : Obligations.CommandsNeverReadObuf := by
  intro i s t m hx
  have hsame : s.SameButObuf { s with obuf := m } := ⟨m, rfl⟩
  cases i with
  | nop =>
    obtain ⟨hadm, rfl⟩ := execNop_next hx
    exact ⟨m, onAdmitted_of (s := { t with obuf := m }) hadm _⟩
  | start =>
    obtain ⟨hadm, hbuf, rfl⟩ := execStart_next hx
    exact ⟨m, execStart_of (s := { s with obuf := m }) hadm hbuf⟩
  | byte d =>
    obtain ⟨hadm, ⟨hb, rfl⟩ | ⟨hb, rfl⟩⟩ := execByte_next hx
    · obtain ⟨m', hm'⟩ := hsame.consumeByte d
      exact ⟨m', (execByte_busy (s := { s with obuf := m }) d hadm hb).trans (congrArg _ hm')⟩
    · exact ⟨m, execByte_ignored (s := { t with obuf := m }) d hadm hb⟩
  | endCall =>
    obtain ⟨hadm, ⟨hb, rfl⟩ | ⟨hb, rfl⟩⟩ := execEnd_next hx
    · obtain ⟨m', hm'⟩ := hsame.flushTail
      exact ⟨m', (execEnd_busy (s := { s with obuf := m }) hadm hb).trans (congrArg _ hm')⟩
    · exact ⟨m, execEnd_ignored (s := { t with obuf := m }) hadm hb⟩

end Sys2Proof.Machine

/-! PROOFS. Several encoders over one memory (20_memory.md R51; 60_exceptions.md R159): every platform step ends admitted,
and a command of one encoder does what the block alone does and reaches no cell of another busy encoder. Both turn on
which addresses an encoder claims before and after. -/

namespace Sys2Proof.Machine

/-! ### The admitted platforms, by who claims which address -/

theorem Encoder.clashes_iff (e f : Encoder) : e.clashes f = true ↔ ∃ a, e.claims a = true ∧ f.claims a = true := by
  refine ⟨fun h => ⟨max e.base f.base, ?_⟩, fun ⟨a, he, hf⟩ => Encoder.clashes_of_claims he hf⟩
  rw [Encoder.clashes, decide_eq_true_eq] at h
  obtain ⟨he, hf, hlt⟩ := h
  rw [Encoder.claims_iff, Encoder.claims_iff]
  exact ⟨⟨he, by omega⟩, ⟨hf, by omega⟩⟩

/-- R51: no address is claimed by two encoders. -/
theorem Platform.admitted_iff_claims (p : Platform) : p.admitted = true ↔
    ∀ (j k : Nat) (e f : Encoder) (a : Nat), j ≠ k → p.encoders[j]? = some e → p.encoders[k]? = some f →
      ¬ (e.claims a = true ∧ f.claims a = true) := by
  rw [Platform.admitted_iff]
  constructor
  · intro h j k e f a hjk he hf ⟨hea, hfa⟩
    obtain ⟨hj, rfl⟩ := List.getElem?_eq_some_iff.mp he
    obtain ⟨hk, rfl⟩ := List.getElem?_eq_some_iff.mp hf
    rcases Nat.lt_or_gt_of_ne hjk with hlt | hlt
    · exact Bool.eq_false_iff.mp (h j k hj hk hlt) (Encoder.clashes_of_claims hea hfa)
    · exact Bool.eq_false_iff.mp (h k j hk hj hlt) (Encoder.clashes_of_claims hfa hea)
  · intro h j k hj hk hlt
    refine Bool.eq_false_iff.mpr fun hc => ?_
    obtain ⟨a, ha⟩ := (Encoder.clashes_iff _ _).mp hc
    exact h j k _ _ a (Nat.ne_of_lt hlt) (List.getElem?_eq_getElem hj) (List.getElem?_eq_getElem hk) ha

section
variable {p q : Platform} {k : Nat} {e : Encoder}

/-- Who stands at position `j` when position `k` is replaced by `e`. -/
theorem encoders_set_some {l : List Encoder} {j : Nat} {f : Encoder} (h : (l.set k e)[j]? = some f) :
    (j = k ∧ f = e) ∨ (j ≠ k ∧ l[j]? = some f) := by
  by_cases hj : j = k
  · subst hj
    obtain ⟨hlt, hf⟩ := List.getElem?_eq_some_iff.mp h
    exact .inl ⟨rfl, by rw [← hf, List.getElem_set_self]⟩
  · exact .inr ⟨hj, by rwa [List.getElem?_set_ne (Ne.symm hj)] at h⟩

/-- Encoder `k` may become `e` where `e` claims no address of another encoder. -/
theorem Platform.admitted_of_set (hp : p.admitted = true) (hq : q.encoders = p.encoders.set k e)
    (h : ∀ (j : Nat) (f : Encoder) (a : Nat), j ≠ k → p.encoders[j]? = some f → e.claims a = true →
      ¬ f.claims a = true) : q.admitted = true := by
  rw [Platform.admitted_iff_claims] at hp ⊢
  intro i j f g a hij hf hg ⟨hfa, hga⟩
  rw [hq] at hf hg
  rcases encoders_set_some hf with ⟨rfl, rfl⟩ | ⟨hi, hfp⟩
  · rcases encoders_set_some hg with ⟨rfl, -⟩ | ⟨hj, hgp⟩
    · exact hij rfl
    · exact h j g a hj hgp hfa hga
  · rcases encoders_set_some hg with ⟨-, rfl⟩ | ⟨-, hgp⟩
    · exact h i f a hi hfp hga hfa
    · exact hp i j f g a hij hfp hgp ⟨hfa, hga⟩

/-! ### What a platform step can do -/

theorem Platform.step_next (hs : p.step = .next q) : p.admitted = true ∧
    ((p.inputs = [] ∧ q = p) ∨
      ∃ i rest, p.inputs = i :: rest ∧ Platform.deliver i { p with inputs := rest } = .next q) := by
  unfold Platform.step at hs
  split at hs
  · rename_i hp
    split at hs
    · rename_i hi
      exact ⟨hp, .inl ⟨hi, (Host.Outcome.next.inj hs).symm⟩⟩
    · rename_i i rest hi
      exact ⟨hp, .inr ⟨i, rest, hi, hs⟩⟩
  · cases hs

theorem Platform.step_refused (hp : p.admitted = false) : p.step = .refused .overlappingBuffers := by
  simp [Platform.step, hp]

theorem Platform.settle_admitted (hp : p.admitted = true) : p.settle = .next p := if_pos hp

theorem Platform.settle_refused (hp : p.admitted = false) : p.settle = .refused .overlappingBuffers := by
  simp [Platform.settle, hp]

theorem Platform.step_input {i : PlatformInput} {rest : List PlatformInput} (hp : p.admitted = true)
    (hi : p.inputs = i :: rest) : p.step = Platform.deliver i { p with inputs := rest } := by
  simp only [Platform.step, hp, if_true, hi]

/-- An input of an encoder, other than a host write, is a step of that encoder. -/
theorem Platform.deliver_toEncoder {h : HostInput} (hh : ¬ ∃ a v, h = .bufferWrite a v) (p : Platform) (k : Nat) :
    Platform.deliver (.toEncoder k h) p = p.runEncoder k h := by
  cases h with
  | bufferWrite a v => exact absurd ⟨a, v, rfl⟩ hh
  | command | reset | lend => rfl

/-- A host write moves no encoder, or is a step of the encoder that claims the address and so ends in `settle`. -/
theorem Platform.hostWrite_next {a : Nat} {v : Byte} (hq : p.hostWrite a v = .next q) :
    q.encoders = p.encoders ∨ q.admitted = true := by
  unfold Platform.hostWrite at hq
  split at hq
  · split at hq
    · obtain ⟨-, -, -, -, -, hadm⟩ := Platform.runEncoder_next hq
      exact .inr hadm
    · cases hq
  · cases hq
    exact .inl rfl

/-- R171: only the buffer of an encoder with no open call is placed. -/
theorem Platform.placeBuffer_next {base cells : Nat} (hq : p.placeBuffer k base cells = .next q) :
    ∃ e, e.block.call ≠ .busy ∧ q.encoders = p.encoders.set k e := by
  unfold Platform.placeBuffer at hq
  split at hq
  · cases hq
  · rename_i e he
    split at hq
    · cases hq
    · rename_i hb
      cases hq
      exact ⟨{ base := base, block := { e.block with obufLen := some cells } }, hb, rfl⟩

/-- A platform whose encoders stand as they were is as admitted as it was. -/
theorem Platform.admitted_congr (h : q.encoders = p.encoders) : q.admitted = p.admitted := by
  simp only [Platform.admitted, h]

theorem Platform.deliver_keeps_admitted {i : PlatformInput} (hp : p.admitted = true)
    (hq : Platform.deliver i p = .next q) : q.admitted = true := by
  have hrun {k : Nat} {h : HostInput} (hr : p.runEncoder k h = .next q) : q.admitted = true := by
    obtain ⟨-, -, -, -, -, hadm⟩ := Platform.runEncoder_next hr
    exact hadm
  have hwrite {a : Nat} {v : Byte} (hw : p.hostWrite a v = .next q) : q.admitted = true :=
    (Platform.hostWrite_next hw).elim (fun h => (Platform.admitted_congr h).trans hp) id
  cases i with
  | toEncoder k h =>
    by_cases hh : ∃ a v, h = .bufferWrite a v
    · obtain ⟨a, v, rfl⟩ := hh
      simp only [Platform.deliver] at hq
      split at hq
      · exact hwrite hq
      · cases hq
    · exact hrun ((Platform.deliver_toEncoder hh p k).symm.trans hq)
  | memoryWrite a v => exact hwrite hq
  | place k base cells =>
    obtain ⟨e, hb, he⟩ := Platform.placeBuffer_next hq
    refine Platform.admitted_of_set hp he fun j f a _ _ hc => ?_
    exact absurd ((Encoder.claims_iff e a).mp hc).1 hb

theorem Platform.step_keeps_admitted (hs : p.step = .next q) : q.admitted = true := by
  obtain ⟨hp, ⟨-, rfl⟩ | ⟨i, rest, -, hd⟩⟩ := Platform.step_next hs
  · exact hp
  · exact Platform.deliver_keeps_admitted (p := { p with inputs := rest }) hp hd

end

/-! ### A command or a reset of one encoder -/

/-- A command that answers next claims an address that was not claimed before only as a START, and then from its own
range. -/
theorem exec_claims {i : Instr} {s t : State} (hx : exec i s = .next t) (base : Nat) {a : Nat}
    (ha : (Encoder.mk base t).claims a = true) :
    (Encoder.mk base s).claims a = true ∨ (i = .start ∧ base ≤ a ∧ a < base + s.capIn) := by
  rw [Encoder.claims_iff] at ha ⊢
  obtain ⟨hb, hlo, hhi⟩ := ha
  by_cases hi : i = .start
  · subst hi
    obtain ⟨-, -, rfl⟩ := execStart_next hx
    exact .inr ⟨rfl, hlo, hhi⟩
  · rcases exec_call_olen_cases hx with ⟨hc, -⟩ | ⟨-, -, hs⟩ | ⟨hc, -⟩ | ⟨hc, -⟩
    · exact .inl ⟨hc ▸ hb, hlo, exec_cap hx hi ▸ hhi⟩
    · exact absurd hs hi
    · simp [hc] at hb
    · simp [hc] at hb

section
variable {p q : Platform} {k : Nat} {e : Encoder} {rest : List PlatformInput}

theorem Platform.store_self (he : p.encoders[k]? = some e) (t : State) :
    (p.store k e t).encoders[k]? = some { e with block := { t with obuf := [] } } :=
  List.getElem?_set_self (List.getElem?_eq_some_iff.mp he).1

theorem Platform.store_other {j : Nat} (hj : j ≠ k) (t : State) :
    (p.store k e t).encoders[j]? = p.encoders[j]? :=
  List.getElem?_set_ne (Ne.symm hj)

/-- An admitted platform runs a command as the block does, and settles. -/
theorem Platform.step_command {w : CmdWord} {c : Nat} {t : State} (hi : p.inputs = .toEncoder k (.command w c) :: rest)
    (hp : p.admitted = true) (he : p.encoders[k]? = some e)
    (hx : exec (decode w) { p.load e with capIn := c } = .next t) :
    p.step = (Platform.store { p with inputs := rest } k e t).settle := by
  have hd : Machine.deliver (.command w c) (p.load e) = .next t := hx
  have hl : Platform.load { p with inputs := rest } e = p.load e := rfl
  rw [Platform.step_input hp hi, Platform.deliver_toEncoder (by simp)]
  simp only [Platform.runEncoder, he, hl, hd]

/-- A reset or a command reaches no cell but those of its own open call. -/
theorem deliver_read_unclaimed {h : HostInput} (hh : h = .reset ∨ ∃ w c, h = .command w c) {s t : State}
    (hd : deliver h s = .next t) {a : Nat} (ha : ¬ (s.call = .busy ∧ a < s.cap)) :
    t.obuf.read a = s.obuf.read a := by
  rcases hh with rfl | ⟨w, c, rfl⟩
  · cases hd
    rfl
  · exact exec_read_outside_call (s := { s with capIn := c }) hd ha

end

/-- Settles O59. A step of an encoder and a host write to a cell of an open call end in `settle`, a placed buffer belongs
to no open call, and no other input moves an encoder. -/
theorem platformStepStaysAdmitted : Obligations.PlatformStepStaysAdmitted :=
  fun _ q hs => (Platform.admitted_iff_claims q).mp (Platform.step_keeps_admitted hs)

/-- Settles O55. The cells another busy encoder owns lie outside this one's open call, because the platform is
admitted. -/
theorem instancesDoNotInteract : Obligations.InstancesDoNotInteract := by
  intro p q k h rest hi hh hs j hjk
  obtain ⟨hp, -⟩ := Platform.step_next hs
  rw [Platform.step_input hp hi, Platform.deliver_toEncoder (by rcases hh with rfl | ⟨w, c, rfl⟩ <;> simp)] at hs
  obtain ⟨e, t, he, hd, rfl, -⟩ := Platform.runEncoder_next hs
  refine ⟨Platform.store_other hjk t, fun f a hf hfa => ?_⟩
  rw [Platform.store_mem, Memory.read_withView]
  split
  · rfl
  · rename_i hlo
    have hunclaimed : ¬ (e.block.call = .busy ∧ a - e.base < e.block.cap) := fun ⟨hb, hlt⟩ =>
      (Platform.admitted_iff_claims p).mp hp j k f e a hjk hf he
        ⟨hfa, (Encoder.claims_iff e a).mpr ⟨hb, by omega, by omega⟩⟩
    calc t.obuf.read (a - e.base)
      _ = (p.mem.viewFrom e.base).read (a - e.base) := deliver_read_unclaimed hh hd hunclaimed
      _ = p.mem.read a := by rw [Memory.read_viewFrom, show e.base + (a - e.base) = a by omega]

/-- Settles O56. A platform with no two claims on one address is what `admitted` says. -/
theorem overlappingBuffersRefused : Obligations.OverlappingBuffersRefused := by
  intro p j k e f a hjk he hf hea hfa
  refine Platform.step_refused (Bool.eq_false_iff.mpr fun hp => ?_)
  exact (Platform.admitted_iff_claims p).mp hp j k e f a hjk he hf ⟨hea, hfa⟩

/-- Settles O57. The START runs on its block, and the platform it leaves has two encoders that claim the address. -/
theorem startIntoOwnedCellsRefused : Obligations.StartIntoOwnedCellsRefused := by
  intro p j k e f w c a rest hi hw hjk he hf hp hadm hbuf hfa hlo hhi
  have hx : exec (decode w) { p.load e with capIn := c } = .next (openCall { p.load e with capIn := c }) := by
    rw [hw]
    exact execStart_of hadm hbuf
  rw [Platform.step_command hi hp he hx]
  refine Platform.settle_refused (Bool.eq_false_iff.mpr fun hq => ?_)
  refine (Platform.admitted_iff_claims _).mp hq k j _ f a (Ne.symm hjk) (Platform.store_self he _)
    ((Platform.store_other hjk _).trans hf) ⟨?_, hfa⟩
  exact (Encoder.claims_iff _ a).mpr ⟨rfl, hlo, hhi⟩

/-- Settles O58. The encoder claims no address of another afterwards: what it claims it claimed before, or it lies in
START's range. -/
theorem platformRunsBlockCommand : Obligations.PlatformRunsBlockCommand := by
  intro p k e w c t rest hi hp he hfree hx
  have hq : (Platform.store { p with inputs := rest } k e t).admitted = true := by
    refine Platform.admitted_of_set hp rfl fun j f a hj hf hea hfa => ?_
    rcases exec_claims hx e.base hea with hold | ⟨hw, hlo, hhi⟩
    · exact (Platform.admitted_iff_claims p).mp hp j k f e a hj hf he ⟨hfa, hold⟩
    · exact hfree hw j f a hj hf hfa ⟨hlo, hhi⟩
  refine ⟨_, (Platform.step_command hi hp he hx).trans (Platform.settle_admitted hq), ?_, ?_, ?_, rfl⟩
  · exact Platform.store_self he t
  · intro a
    rw [Platform.store_mem, Memory.read_withView, if_neg (by omega), Nat.add_sub_cancel_left]
  · intro a ha
    rw [Platform.store_mem, Memory.read_withView, if_pos ha]

end Sys2Proof.Machine

/-! PROOFS. A call with room for its symbols (42_encode_contract.md R130, R140, R141): after each BYTE the open call holds
the symbols of the bytes so far (`State.InCall`), END adds the partial one, and the host reads the result (R175). -/

namespace Sys2Proof.Machine

/-! ### The symbols of the stream as cells -/

/-- The indexes `S_a` to `S_(a + n - 1)` of R132. -/
def streamSymbols (bs : List Byte) (a n : Nat) : List SymbolIndex :=
  (List.range' a n).map fun k => BitVec.ofNat 5 (symbolIndex bs k)

@[simp] theorem streamSymbols_length (bs : List Byte) (a n : Nat) : (streamSymbols bs a n).length = n := by
  simp [streamSymbols]

theorem mem_symbolCells_stream (bs : List Byte) {a n k : Nat} (hlo : a ≤ k) (hhi : k < a + n) :
    (k, symbolCode bs k) ∈ symbolCells a (streamSymbols bs a n) := by
  induction n generalizing a with
  | zero => omega
  | succ n ih =>
    rw [streamSymbols, List.range'_succ, List.map_cons, symbolCells, List.mem_cons]
    rcases Nat.eq_or_lt_of_le hlo with rfl | hlt
    · exact .inl rfl
    · exact .inr (ih hlt (by omega))

/-! ### The open call after some bytes -/

/-- A call of capacity `cap`, opened over the memory `m`, is open after the BYTE commands of `bs` with no error: the carry
is R140's, `wptr` is R141's, the cells below it hold the whole symbols of `bs` and the others are as they were. No host
write has raced. -/
structure State.InCall (cap : Nat) (m : Memory) (bs : List Byte) (s : State) : Prop where
  call : s.call = .busy
  olen : s.olen = false
  cap_eq : s.cap = cap
  holds : s.bufferHolds cap = true
  remain : s.remain.toNat = phaseRemain bs.length
  current : s.current.toNat = phaseCurrent bs
  wptr : s.wptr = 8 * bs.length / 5
  raced : s.raced = []
  cells : ∀ k, k < s.wptr → s.obuf.read k = some (symbolCode bs k)
  frame : ∀ a, s.wptr ≤ a → s.obuf.read a = m.read a

section
variable {s t : State} {cap : Nat} {m : Memory} {bs : List Byte}

theorem State.InCall.admitted (h : s.InCall cap m bs) : s.Admitted := by
  obtain ⟨h1, h5, -⟩ := phaseRemain_spec bs.length
  refine ⟨(State.carryLegal_iff s).mpr ?_, (State.capacityTrue_iff s).mpr fun _ => h.cap_eq ▸ h.holds⟩
  rw [h.remain, h.current]
  exact ⟨h1, h5, phaseCurrent_lt bs⟩

/-- The ports and the inputs to come do not matter to an open call. -/
theorem State.InCall.withPorts (h : s.InCall cap m bs) (is : List HostInput) (ws : List Host.Cell) (c : Nat) :
    { s with inputs := is, obufPort := ws, capIn := c }.InCall cap m bs :=
  ⟨h.call, h.olen, h.cap_eq, h.holds, h.remain, h.current, h.wptr, h.raced, h.cells, h.frame⟩

theorem openCall_inCall (hb : s.bufferHolds s.capIn = true) : (openCall s).InCall s.capIn s.obuf [] where
  call := rfl
  olen := rfl
  cap_eq := rfl
  holds := hb
  remain := rfl
  current := rfl
  wptr := rfl
  raced := rfl
  cells k hk := absurd hk (Nat.not_lt_zero k)
  frame _ _ := rfl

/-- A run of stream symbols from `wptr` on, in an open call whose cells it agrees with: all cells up to its end then hold
the stream's symbols. -/
theorem State.InCall.read_wrote (h : s.InCall cap m bs) {bs' : List Byte} {n : Nat}
    (hw : s.Wrote (streamSymbols bs' s.wptr n) t) (hold : ∀ k, k < s.wptr → symbolCode bs' k = symbolCode bs k) :
    (∀ k, k < s.wptr + n → t.obuf.read k = some (symbolCode bs' k)) ∧
      ∀ a, s.wptr + n ≤ a → t.obuf.read a = m.read a := by
  refine ⟨fun k hk => ?_, fun a ha => ?_⟩
  · rcases Nat.lt_or_ge k s.wptr with hlt | hge
    · rw [hw.read_other (.inl hlt), h.cells k hlt, hold k hlt]
    · refine (hw.read_cell (mem_symbolCells_stream bs' hge hk)).resolve_right fun hr => ?_
      simp [h.raced] at hr
  · rw [hw.read_other (.inr (by simpa using ha)), h.frame a (by omega)]

/-- BYTE with room writes exactly the symbols that its bits complete. -/
theorem State.InCall.consumeByte_stream (h : s.InCall cap m bs) (d : Byte) (room : 8 * (bs.length + 1) / 5 ≤ cap) :
    ∃ n u, s.Wrote (streamSymbols (bs ++ [d]) s.wptr n) u ∧ s.wptr + n = 8 * (bs.length + 1) / 5 ∧
      consumeByte d s = latchCarry s.remain d u := by
  have hcount := symbolCount_succ bs.length
  have hw := h.wptr
  have hc := h.cap_eq
  have hi1 := idx1_stream d h.remain h.current
  by_cases h2 : phaseRemain bs.length ≤ 3
  · rw [if_pos h2] at hcount
    obtain ⟨u, hu, -, hx⟩ := consumeByte_two d (s := s) (by omega) ((second_iff _).mpr (h.remain ▸ h2))
    rw [hi1, idx2_stream d h.remain, ← hw] at hu
    exact ⟨2, u, hu, by omega, hx⟩
  · rw [if_neg h2] at hcount
    have hs : second s.remain = false := Bool.eq_false_iff.mpr fun hs => h2 (h.remain ▸ (second_iff _).mp hs)
    obtain ⟨u, hu, -, hx⟩ := consumeByte_one d (s := s) (by omega) hs
    rw [hi1, ← hw] at hu
    exact ⟨1, u, hu, by omega, hx⟩

/-- R140: the carry that BYTE leaves is the next phase's. -/
theorem State.InCall.nextCarry (h : s.InCall cap m bs) (d : Byte) :
    (nextRemain s.remain).toNat = phaseRemain (bs ++ [d]).length ∧
      (nextCurrent s.remain d).toNat = phaseCurrent (bs ++ [d]) := by
  obtain ⟨h1, h5, -⟩ := phaseRemain_spec bs.length
  have hr := h.remain
  have hnext := phaseRemain_succ bs.length
  refine ⟨?_, ?_⟩
  · rw [nextRemain_toNat (by omega) (by omega), hr, ← hnext, List.length_append, List.length_singleton]
  · rw [phaseCurrent_append, hnext]
    by_cases h2 : phaseRemain bs.length ≤ 3
    · rw [if_pos h2, nextCurrent_toNat_two d ((second_iff _).mpr (hr ▸ h2)), hr]
      congr 2
      omega
    · have hs : second s.remain = false := Bool.eq_false_iff.mpr fun hs => h2 (hr ▸ (second_iff _).mp hs)
      rw [if_neg h2, nextCurrent_toNat_one d hs, hr]
      congr 2
      omega

theorem State.InCall.consumeByte (h : s.InCall cap m bs) (d : Byte) (room : 8 * (bs.length + 1) / 5 ≤ cap) :
    (consumeByte d s).InCall cap m (bs ++ [d]) ∧ (consumeByte d s).inputs = s.inputs := by
  obtain ⟨n, u, hw, hn, hx⟩ := h.consumeByte_stream d room
  obtain ⟨hremain, hcurrent⟩ := h.nextCarry d
  have hwptr : u.wptr = s.wptr + n := by rw [hw.wptr, streamSymbols_length]
  obtain ⟨hcells, hframe⟩ := h.read_wrote hw fun k hk => symbolCode_append d (by have := h.wptr; omega)
  rw [hx]
  refine ⟨?_, hw.inputs⟩
  exact {
    call := hw.call.trans h.call
    olen := hw.olen.trans h.olen
    cap_eq := hw.cap.trans h.cap_eq
    holds := by simpa only [State.bufferHolds, latchCarry_obufLen, hw.obufLen] using h.holds
    remain := hremain
    current := hcurrent
    wptr := by rw [latchCarry_wptr, hwptr, hn, List.length_append, List.length_singleton]
    raced := by rw [latchCarry_raced, hw.raced, h.raced, List.filter_nil]
    cells := by rw [latchCarry_wptr, hwptr]; exact hcells
    frame := by rw [latchCarry_wptr, hwptr]; exact hframe }

/-- END with room writes exactly the partial symbol, if there is one. -/
theorem State.InCall.flushTail_stream (h : s.InCall cap m bs) (room : requiredLength bs.length ≤ cap) :
    ∃ n u, s.Wrote (streamSymbols bs s.wptr n) u ∧ s.wptr + n = requiredLength bs.length ∧
      flushTail s = closeCall u := by
  have hlen := requiredLength_eq bs.length
  have hw := h.wptr
  by_cases hr : s.remain = 5#3
  · have h5 : phaseRemain bs.length = 5 := by rw [← h.remain, hr]; rfl
    rw [if_pos h5] at hlen
    exact ⟨0, s, .nil s, by omega, flushTail_none hr⟩
  · have h5 : phaseRemain bs.length ≠ 5 := fun h5 => hr (BitVec.eq_of_toNat_eq (h.remain.trans h5))
    rw [if_neg h5] at hlen
    obtain ⟨u, hu, -, hx⟩ := flushTail_room hr (by have := h.cap_eq; omega)
    have hcur : s.current = BitVec.ofNat 5 (symbolIndex bs s.wptr) :=
      BitVec.eq_of_toNat_eq (by rw [h.current, symbolIndex_toNat, hw, tail_stream])
    rw [hcur] at hu
    exact ⟨1, u, hu, by omega, hx⟩

/-! ### The steps of a call -/

theorem step_command {w : CmdWord} {c : Nat} {rest : List HostInput} (hi : s.inputs = .command w c :: rest) :
    step s = exec (decode w) { s with inputs := rest, obufPort := [], capIn := c } := step_input hi

/-- The BYTE command of a call (R67). -/
def byteInput (idle : Nat) (d : Byte) : HostInput := .command (0x200#10 ||| BitVec.ofNat 10 d.toNat) idle

theorem step_start_inCall (hadm : s.Admitted) (hb : s.bufferHolds cap = true) {rest : List HostInput}
    (hi : s.inputs = .command 0x100#10 cap :: rest) :
    ∃ t, step s = .next t ∧ t.inputs = rest ∧ t.InCall cap s.obuf [] := by
  rw [step_command hi, decode_start_word]
  exact ⟨_, execStart_of (s := { s with inputs := rest, obufPort := [], capIn := cap }) hadm hb, rfl,
    openCall_inCall (s := { s with inputs := rest, obufPort := [], capIn := cap }) hb⟩

theorem State.InCall.step_byte (h : s.InCall cap m bs) {idle : Nat} {d : Byte} {rest : List HostInput}
    (hi : s.inputs = byteInput idle d :: rest) (room : 8 * (bs.length + 1) / 5 ≤ cap) :
    ∃ t, step s = .next t ∧ t.inputs = rest ∧ t.InCall cap m (bs ++ [d]) := by
  rw [step_command hi, decode_byteWord]
  have h' := h.withPorts rest [] idle
  obtain ⟨hnext, hin⟩ := h'.consumeByte d room
  exact ⟨_, execByte_busy d h'.admitted h'.call, hin, hnext⟩

/-- R130, R141: the BYTE commands of `ds` run on as long as their symbols fit. -/
theorem State.InCall.run_bytes {idle : Nat} {rest : List HostInput} (ds : List Byte) (h : s.InCall cap m bs)
    (hi : s.inputs = ds.map (byteInput idle) ++ rest) (room : 8 * (bs.length + ds.length) / 5 ≤ cap) :
    ∃ t, Host.Core.run core ds.length s = .next t ∧ t.inputs = rest ∧ t.InCall cap m (bs ++ ds) := by
  induction ds generalizing s bs with
  | nil => exact ⟨s, rfl, hi, by rwa [List.append_nil]⟩
  | cons d ds ih =>
    rw [List.length_cons] at room ⊢
    obtain ⟨u, hu, hui, hucall⟩ := h.step_byte (rest := ds.map (byteInput idle) ++ rest) hi (by omega)
    obtain ⟨t, ht, hti, htcall⟩ := ih hucall hui (by rw [List.length_append, List.length_singleton]; omega)
    rw [List.append_assoc] at htcall
    exact ⟨t, (run_succ _ hu).trans ht, hti, htcall⟩

/-- R140, R141: START and the BYTE commands of a call whose whole symbols fit. -/
theorem run_openCall {idle : Nat} {rest : List HostInput} (hadm : s.Admitted) (hb : s.bufferHolds cap = true)
    (hi : s.inputs = openCallInputs idle cap bs ++ rest) (room : 8 * bs.length / 5 ≤ cap) :
    ∃ t, Host.Core.run core (bs.length + 1) s = .next t ∧ t.inputs = rest ∧ t.InCall cap s.obuf bs := by
  rw [openCallInputs_eq] at hi
  obtain ⟨u, hu, hui, hucall⟩ := step_start_inCall hadm hb hi
  obtain ⟨t, ht, hti, htcall⟩ := hucall.run_bytes (idle := idle) bs hui (by simpa using room)
  exact ⟨t, (run_succ _ hu).trans ht, hti, htcall⟩

/-- R130: END with room for all symbols. -/
theorem State.InCall.step_end (h : s.InCall cap m bs) {idle : Nat} {rest : List HostInput}
    (hi : s.inputs = .command 0x300#10 idle :: rest) (room : requiredLength bs.length ≤ cap) :
    ∃ t, step s = .next t ∧ t.inputs = rest ∧ t.call = .done ∧ t.olen = false ∧
      t.wptr = requiredLength bs.length ∧
      (∀ k, k < requiredLength bs.length → t.obuf.read k = some (symbolCode bs k)) ∧
      ∀ a, requiredLength bs.length ≤ a → t.obuf.read a = m.read a := by
  have h' := h.withPorts rest [] idle
  obtain ⟨n, u, hw, hn, hx⟩ := h'.flushTail_stream room
  obtain ⟨hcells, hframe⟩ := h'.read_wrote hw fun _ _ => rfl
  rw [hn] at hcells hframe
  have hwptr : u.wptr = requiredLength bs.length := by rw [hw.wptr, streamSymbols_length, hn]
  rw [step_command hi, decode_end_word]
  exact ⟨closeCall u, (execEnd_busy h'.admitted h'.call).trans (congrArg _ hx), hw.inputs, rfl, hw.olen.trans h'.olen,
    hwptr, hcells, hframe⟩

/-- R130: a whole call with room for all its symbols. -/
theorem run_call_done {idle : Nat} {rest : List HostInput} (hadm : s.Admitted) (hb : s.bufferHolds cap = true)
    (hi : s.inputs = callInputs idle cap bs ++ rest) (room : requiredLength bs.length ≤ cap) :
    ∃ t, Host.Core.run core (bs.length + 2) s = .next t ∧ t.inputs = rest ∧ t.call = .done ∧ t.olen = false ∧
      t.wptr = requiredLength bs.length ∧
      (∀ k, k < requiredLength bs.length → t.obuf.read k = some (symbolCode bs k)) ∧
      ∀ a, requiredLength bs.length ≤ a → t.obuf.read a = s.obuf.read a := by
  have hwhole : 8 * bs.length / 5 ≤ requiredLength bs.length := by
    rw [requiredLength_eq]
    exact Nat.le_add_right _ _
  rw [callInputs_eq, List.append_assoc] at hi
  obtain ⟨u, hu, hui, hcall⟩ := run_openCall hadm hb hi (hwhole.trans room)
  obtain ⟨t, ht, hend⟩ := hcall.step_end hui room
  refine ⟨t, ?_, hend⟩
  rw [run_add (bs.length + 1) 1 hu, run_succ 0 ht, run_zero]

end

/-- Settles O47. -/
theorem resultOfSuccessfulCall : Obligations.ResultOfSuccessfulCall := by
  intro s idle cap bs rest hadm hb hi room
  obtain ⟨t, hrun, -, hdone, -, hcount, hcells, -⟩ := run_call_done hadm hb hi room
  refine ⟨t, hrun, decide_eq_true (.inl hdone), ?_⟩
  have hread : ∀ k ∈ List.range t.wptr, t.hostRead k = symbolCode bs k := fun k hk =>
    State.hostRead_of_read (hcells k (hcount ▸ List.mem_range.mp hk))
  unfold State.result State.count
  rw [hdone, List.map_congr_left hread, hcount]

end Sys2Proof.Machine

/-! PROOFS. The encoding (30_encoding.md R60 to R69): the OP bits of a word, the rows of the opcode map, and the round
trip of a word through its command. -/

namespace Sys2Proof

/-! ### The OP bits of a word -/

/-- The mask of every row of R69 keeps the OP field and clears DATA. -/
theorem and_opMask (w : CmdWord) : w &&& 0x300#10 = commandWord (opField w) 0#8 := by
  have hmask : 0x300#10 = 0b11#2 ++ 0#8 := by decide
  have hop : opField w &&& 0b11#2 = opField w := BitVec.and_allOnes
  calc w &&& 0x300#10 = (opField w ++ dataField w) &&& (0b11#2 ++ 0#8) := by
        rw [hmask]; exact congrArg (· &&& _) (commandWord_fields w).symm
    _ = commandWord (opField w) 0#8 := by rw [BitVec.and_append, hop, BitVec.and_zero]; rfl

theorem and_opMask_eq_iff (w : CmdWord) (op : BitVec 2) : w &&& 0x300#10 = commandWord op 0#8 ↔ opField w = op := by
  rw [and_opMask]
  refine ⟨fun h => ?_, fun h => congrArg (commandWord · 0#8) h⟩
  simpa using congrArg opField h

/-- R63: outside BYTE the OP field alone says which command a word is. -/
theorem decode_congr {w w' : CmdWord} (h : opField w = opField w') (hb : opField w ≠ 0b10#2) : decode w = decode w' := by
  rcases opField_cases w with e | e | e | e
  · rw [decode_eq_nop e, decode_eq_nop (h ▸ e)]
  · rw [decode_eq_start e, decode_eq_start (h ▸ e)]
  · exact absurd e hb
  · rw [decode_eq_endCall e, decode_eq_endCall (h ▸ e)]

/-- Only an OP of BYTE decodes to BYTE, and its operand is the DATA field. -/
theorem dataField_of_decode_byte {w : CmdWord} {d : Byte} (h : decode w = .byte d) : dataField w = d := by
  rcases opField_cases w with e | e | e | e
  · simp [decode_eq_nop e] at h
  · simp [decode_eq_start e] at h
  · simpa [decode_eq_byte e] using h
  · simp [decode_eq_endCall e] at h

/-! ### The round trip -/

theorem decode_encode (i : Instr) : decode (encode i) = i := by
  cases i with
  | nop => exact decode_nop_word
  | start => exact decode_start_word
  | byte d => exact (decode_eq_byte (opField_commandWord _ d)).trans (congrArg _ (dataField_commandWord _ d))
  | endCall => exact decode_end_word

theorem encode_decode_byte {w : CmdWord} (h : opField w = 0b10#2) : encode (decode w) = w := by
  rw [decode_eq_byte h, encode, ← h, commandWord_fields]

theorem encode_decode_other {w : CmdWord} (h : opField w ≠ 0b10#2) : encode (decode w) = w &&& 0x300#10 := by
  rw [and_opMask]
  rcases opField_cases w with e | e | e | e
  · rw [decode_eq_nop e, e, encode]
  · rw [decode_eq_start e, e, encode]
  · exact absurd e h
  · rw [decode_eq_endCall e, e, encode]

theorem encode_decode_and_opMask (w : CmdWord) : encode (decode w) &&& 0x300#10 = w &&& 0x300#10 := by
  by_cases h : opField w = 0b10#2
  · rw [encode_decode_byte h]
  · rw [encode_decode_other h, BitVec.and_assoc, BitVec.and_self]

/-- Settles O2. -/
theorem decodeEncodeAgree : Obligations.DecodeEncodeAgree := by
  refine ⟨fun i _ => decode_encode i, fun w => ?_⟩
  split_ifs with h
  · exact encode_decode_byte ((and_opMask_eq_iff w _).mp h)
  · exact encode_decode_other fun hop => h ((and_opMask_eq_iff w _).mpr hop)

/-! ### The opcode map -/

theorem opcodeMap_mask : ∀ r ∈ opcodeMap, r.mask = 0x300#10 := by decide

theorem opcodeMap_mnemonic_inj : ∀ r ∈ opcodeMap, ∀ r' ∈ opcodeMap, r.mnemonic = r'.mnemonic → r = r' := by decide

theorem exists_opcodeRow (i : Instr) : ∃ r ∈ opcodeMap, r.mnemonic = i.mnemonic := by
  cases i <;> simp [opcodeMap, Instr.mnemonic]

theorem inOpcodeMap (i : Instr) : Laws.InOpcodeMap.Statement i := by
  cases i with
  | nop => exact Laws.InOpcodeMap.nop
  | start => exact Laws.InOpcodeMap.start
  | byte d => exact Laws.InOpcodeMap.byte d
  | endCall => exact Laws.InOpcodeMap.endCall

/-- A word is in the row of its command and in no other: a row looks at the OP bits only, and those are the bits of the
command's own word. -/
theorem OpcodeRow.holds_iff {r : OpcodeRow} (hr : r ∈ opcodeMap) (w : CmdWord) :
    r.holds w = true ↔ r.mnemonic = (decode w).mnemonic := by
  have hword : r.holds w = r.holds (encode (decode w)) := by
    unfold OpcodeRow.holds
    rw [opcodeMap_mask r hr, encode_decode_and_opMask]
  rw [hword, inOpcodeMap (decode w) r hr, decide_eq_true_eq]

/-- Settles O1. Each command has one row, so each word is in exactly the row of the command it decodes to. -/
theorem decodeFollowsOpcodeMap : Obligations.DecodeFollowsOpcodeMap := by
  refine fun w => ⟨?_, fun r hr hw => ((OpcodeRow.holds_iff hr w).mp hw).symm, fun d hd j hj => ?_⟩
  · obtain ⟨r, hr, hm⟩ := exists_opcodeRow (decode w)
    refine ⟨r, ⟨hr, (OpcodeRow.holds_iff hr w).mpr hm⟩, fun r' ⟨hr', hw'⟩ => ?_⟩
    exact opcodeMap_mnemonic_inj r' hr' r hr (((OpcodeRow.holds_iff hr' w).mp hw').trans hm.symm)
  · rw [← dataField_of_decode_byte hd, dataField, BitVec.getLsbD_extractLsb']
    simp [hj]

/-- Settles O4. -/
theorem writtenWordsDecode : Obligations.WrittenWordsDecode := by
  unfold Obligations.WrittenWordsDecode
  decide

end Sys2Proof

namespace Sys2Proof.Machine

/-- Settles O3. -/
theorem dataFieldIgnored : Obligations.DataFieldIgnored := by
  refine ⟨fun w w' h hb => ?_, fun i hi => ?_⟩
  · have hop : opField w = opField w' := (and_opMask_eq_iff w _).mp (h.trans (and_opMask w'))
    have hd : decode w = decode w' := decode_congr hop fun e => hb ((and_opMask_eq_iff w _).mpr e)
    exact ⟨hd, fun c s => by rw [takeCommand, takeCommand, hd]⟩
  · simp only [List.mem_cons, List.not_mem_nil, or_false] at hi
    rcases hi with rfl | rfl | rfl <;> exact dataField_commandWord _ _

/-- Settles O5. -/
theorem stepRunsDecodedCommand : Obligations.StepRunsDecodedCommand := fun _ _ _ _ hi => step_command hi

/-- Settles O13. In an admitted state the guard lets every command through; BYTE and END do nothing outside BUSY. -/
theorem everyCommandCompletes : Obligations.EveryCommandCompletes := by
  intro i s hadm hcap
  cases i with
  | nop => exact ⟨s, onAdmitted_of hadm _⟩
  | start => exact ⟨openCall s, execStart_of hadm (hcap rfl)⟩
  | byte d =>
    by_cases hb : s.call = .busy
    · exact ⟨consumeByte d s, execByte_busy d hadm hb⟩
    · exact ⟨s, execByte_ignored d hadm hb⟩
  | endCall =>
    by_cases hb : s.call = .busy
    · exact ⟨flushTail s, execEnd_busy hadm hb⟩
    · exact ⟨s, execEnd_ignored hadm hb⟩

/-! ### The assembler's lines -/

/-- R67: the word of `BYTE b` is the number `0x200 + b`. -/
theorem byteWord_toNat {b : Nat} (h : b < 256) : (0x200#10 ||| BitVec.ofNat 10 b).toNat = 0x200 + b := by
  have hb : (BitVec.ofNat 8 b).toNat = b := (BitVec.toNat_ofNat b 8).trans (Nat.mod_eq_of_lt h)
  have hw := byteWord_eq (BitVec.ofNat 8 b)
  rw [hb] at hw
  rw [hw, commandWord_toNat, hb]
  rfl

/-- R68: ENCODE's words are those of its lines, in order. -/
theorem words_encode (cap : Nat) (bytes : List Nat) : Line.words (.encode cap bytes) =
    Line.words (.start cap) ++ bytes.flatMap (fun b => Line.words (.byte b)) ++ Line.words .endCall := by
  simp [Line.words, Line.expand, List.flatMap_map]

/-- Settles O60. -/
theorem assemblerWords : Obligations.AssemblerWords :=
  ⟨fun _ => rfl, fun _ _ => rfl, fun _ _ hb => ⟨_, rfl, byteWord_toNat hb⟩, fun _ => rfl, words_encode⟩

end Sys2Proof.Machine

/-! PROOFS. The datapath (40_datapath.md R80 to R90): what the ROMs hold, the indexes and the next carry as slices of
the byte and of `current`, and with them what BYTE and END write in each phase. -/

namespace Sys2Proof.Machine

/-! ### The ROMs -/

/-- Settles O36. -/
theorem maskRomContents : Obligations.MaskRomContents := by
  intro k
  rw [← mask_eq k, mask, BitVec.ofNat_toNat, BitVec.setWidth_eq]

/-- R81. -/
theorem alphabet_toNat (i : SymbolIndex) :
    (alphabet i).toNat = if i.toNat < 26 then 0x41 + i.toNat else 0x18 + i.toNat := by
  revert i; decide

/-- The letters lie above the digits, so the formula gives no code twice. -/
theorem alphabet_injective : Function.Injective alphabet := by
  intro i j h
  apply BitVec.eq_of_toNat_eq
  have hi := i.isLt
  have hj := j.isLt
  have hcode := congrArg BitVec.toNat h
  rw [alphabet_toNat, alphabet_toNat] at hcode
  split_ifs at hcode <;> omega

/-- Settles O37. -/
theorem alphabetRomContents : Obligations.AlphabetRomContents := ⟨alphabet_toNat, fun _ _ h => alphabet_injective h⟩

/-! ### The first index (R82) -/

theorem extractLsb'_toNat_div {w : Nat} (x : BitVec w) (start len : Nat) :
    (x.extractLsb' start len).toNat = x.toNat / 2 ^ start % 2 ^ len := by
  rw [BitVec.extractLsb'_toNat, Nat.shiftRight_eq_div_pow]

/-- A number below `2^k` has no bit in common with one shifted left by `k`. -/
theorem shiftLeft_and_eq_zero {c k : Nat} (x : Nat) (hc : c < 2 ^ k) : (x <<< k) &&& c = 0 := by
  refine Nat.eq_of_testBit_eq fun j => ?_
  rw [Nat.testBit_and, Nat.testBit_shiftLeft, Nat.zero_testBit]
  rcases Nat.lt_or_ge j k with hj | hj
  · simp [Nat.not_le.mpr hj]
  · rw [Nat.testBit_lt_two_pow (hc.trans_le (Nat.pow_le_pow_right (by decide) hj)), Bool.and_false]

/-- On a legal carry of `m` bits the first index is the byte's low `n = 5 - m` bits, with the carry below them. -/
theorem idx1_eq_append {r : BitVec 3} {c : BitVec 5} (d : Byte) {n m : Nat} (h5 : n + m = 5) (hr : r.toNat = n)
    (hc : c.toNat < 2 ^ m) : idx1 r c d = (d.extractLsb' 0 n ++ c.extractLsb' 0 m).cast h5 := by
  have hm : 5 - r.toNat = m := by omega
  apply BitVec.eq_of_toNat_eq
  rw [idx1_toNat d (by omega) (hm ▸ hc), BitVec.toNat_cast, append_toNat, extractLsb'_toNat_div,
    extractLsb'_toNat_div, hm, hr, Nat.pow_zero, Nat.div_one, Nat.div_one, Nat.mod_eq_of_lt hc, Nat.mul_comm,
    Nat.add_comm]

/-- With no carry pending the first index is the byte's low five bits. -/
theorem idx1_five {c : BitVec 5} (d : Byte) (hc : c.toNat < 2 ^ 0) : idx1 5#3 c d = d.extractLsb' 0 5 := by
  apply BitVec.eq_of_toNat_eq
  rw [idx1_toNat d (by decide) hc, extractLsb'_toNat_div, Nat.lt_one_iff.mp hc]
  simp

/-- Settles O38. -/
theorem firstIndexPacksExactly : Obligations.FirstIndexPacksExactly := by
  intro r c d _ h5 hc
  refine ⟨shiftLeft_and_eq_zero _ hc, ?_, ?_⟩
  · rw [idx1_toNat d h5 hc, ← Nat.shiftLeft_add_eq_or_of_lt hc, Nat.shiftLeft_eq, Nat.mul_comm, Nat.add_comm]
  · rintro rfl
    exact idx1_five d hc

/-! ### The second index and what is left of the byte (R84, R85) -/

/-- Settles O39. -/
theorem extractedCarryIsHighBits : Obligations.ExtractedCarryIsHighBits := by
  intro r d _ h5
  refine ⟨by rw [extracted_eq, Nat.shiftRight_eq_div_pow], ?_⟩
  rw [extracted_eq, Nat.div_lt_iff_lt_mul (Nat.two_pow_pos _), ← Nat.pow_add, show 8 - r.toNat + r.toNat = 8 by omega]
  exact d.isLt

theorem idx2_eq_extractLsb' (r : BitVec 3) (d : Byte) : idx2 r d = d.extractLsb' r.toNat 5 := by
  apply BitVec.eq_of_toNat_eq
  exact (idx2_toNat r d).trans (extractLsb'_toNat_div d r.toNat 5).symm

theorem second_eq_false_iff (r : BitVec 3) : second r = false ↔ ¬ r.toNat ≤ 3 := by
  rw [← second_iff, Bool.not_eq_true]

theorem leftover_two {r : BitVec 3} (d : Byte) (h : second r = true) : leftover r d = extracted r d >>> 5 := if_pos h

theorem leftover_one {r : BitVec 3} (d : Byte) (h : second r = false) : leftover r d = extracted r d :=
  if_neg (Bool.eq_false_iff.mp h)

theorem leftoverBits_two {r : BitVec 3} (h : second r = true) : leftoverBits r = 3 - r.toNat := by
  rw [leftoverBits, if_pos h, innerBits]
  omega

theorem leftoverBits_one {r : BitVec 3} (h : second r = false) : leftoverBits r = 8 - r.toNat :=
  if_neg (Bool.eq_false_iff.mp h)

/-- Settles O40. -/
theorem secondSymbolFromByte : Obligations.SecondSymbolFromByte := by
  intro r d _ _
  refine ⟨second_iff r, fun h => ?_, fun h => ?_⟩
  · have h2 := (second_iff r).mpr h
    exact ⟨idx2_eq_extractLsb' r d, leftover_two d h2, leftoverBits_two h2⟩
  · have h1 := (second_eq_false_iff r).mpr h
    exact ⟨leftover_one d h1, leftoverBits_one h1⟩

/-! ### The next carry (R86) -/

/-- The register `current` loses nothing of what is left of the byte. -/
theorem nextCurrent_toNat (r : BitVec 3) (d : Byte) : (nextCurrent r d).toNat = leftover r d := by
  rcases Bool.eq_false_or_eq_true (second r) with h | h
  · rw [nextCurrent_toNat_two d h, leftover_two d h, extracted_eq, Nat.shiftRight_eq_div_pow, Nat.div_div_eq_div_mul,
      Nat.pow_add]
  · rw [nextCurrent_toNat_one d h, leftover_one d h, extracted_eq]

theorem nextRemain_toNat_eq_sub {r : BitVec 3} (h1 : 1 ≤ r.toNat) (h5 : r.toNat ≤ 5) :
    (nextRemain r).toNat = 5 - leftoverBits r := by
  rw [nextRemain_toNat h1 h5]
  by_cases h : r.toNat ≤ 3
  · rw [if_pos h, leftoverBits_two ((second_iff r).mpr h)]
    omega
  · rw [if_neg h, leftoverBits_one ((second_eq_false_iff r).mpr h)]
    omega

/-- Settles O41. -/
theorem nextCarryIsLegal : Obligations.NextCarryIsLegal := by
  refine ⟨fun r d h1 h5 => ⟨nextRemain_toNat_eq_sub h1 h5, nextCurrent_toNat r d, ?_⟩, by decide⟩
  exact (State.carryLegal_iff (latchCarry r d State.reset)).mp (latchCarry_carryLegal h1 h5 d State.reset)

/-- A carry that holds the byte's bits from `k` on, of which there are `n`. -/
theorem eq_setWidth_extractLsb'_of_toNat {c : BitVec 5} {d : Byte} {k n : Nat} (hk : k + n = 8) (hn : n ≤ 5)
    (hc : c.toNat = d.toNat / 2 ^ k) : c = (d.extractLsb' k n).setWidth 5 := by
  have hlt : d.toNat / 2 ^ k < 2 ^ n := by
    rw [Nat.div_lt_iff_lt_mul (Nat.two_pow_pos k), ← Nat.pow_add, Nat.add_comm, hk]
    exact d.isLt
  apply BitVec.eq_of_toNat_eq
  rw [hc, BitVec.toNat_setWidth_of_le hn, extractLsb'_toNat_div, Nat.mod_eq_of_lt hlt]

theorem nextCurrent_eq_one {r : BitVec 3} (d : Byte) (h : second r = false) (h5 : r.toNat ≤ 5) :
    nextCurrent r d = (d.extractLsb' r.toNat (8 - r.toNat)).setWidth 5 := by
  have hr := (second_eq_false_iff r).mp h
  exact eq_setWidth_extractLsb'_of_toNat (by omega) (by omega) (nextCurrent_toNat_one d h)

theorem nextCurrent_eq_two {r : BitVec 3} (d : Byte) (h : second r = true) :
    nextCurrent r d = (d.extractLsb' (r.toNat + 5) (3 - r.toNat)).setWidth 5 := by
  have hr := (second_iff r).mp h
  exact eq_setWidth_extractLsb'_of_toNat (by omega) (by omega) (nextCurrent_toNat_two d h)

/-- With `remain` 3 the two symbols use up the byte. -/
theorem nextCurrent_three (d : Byte) : nextCurrent 3#3 d = 0#5 := by
  apply BitVec.eq_of_toNat_eq
  exact (nextCurrent_toNat_two d rfl).trans (Nat.div_eq_of_lt d.isLt)

/-! ### The tail (R87) -/

/-- Settles O42. -/
theorem tailIndexHighBitsZero : Obligations.TailIndexHighBitsZero := by
  intro r c _ _ hc
  refine ⟨tailIndex_eq c, fun j hj => ?_, tailPending_iff r⟩
  rw [tailIndex_eq]
  exact Nat.testBit_lt_two_pow (hc.trans_le (Nat.pow_le_pow_right (by decide) hj))

/-! ### BYTE and END in an open call (R102, R103) -/

section
variable {s : State}

theorem State.Admitted.current_lt (h : s.Admitted) {r : BitVec 3} (hr : s.remain = r) :
    s.current.toNat < 2 ^ (5 - r.toNat) := by
  obtain ⟨-, -, hlt⟩ := (State.carryLegal_iff s).mp h.1
  exact hr ▸ hlt

/-- BYTE in a phase of one symbol, with room for it. -/
theorem exec_byte_one (h : s.Admitted) (hb : s.call = .busy) (room : s.wptr < s.cap) {r r' : BitVec 3} {c : BitVec 5}
    {d : Byte} {i : SymbolIndex} (hr : s.remain = r) (h1 : second r = false) (hi : idx1 r s.current d = i)
    (hc : nextCurrent r d = c) (hr' : nextRemain r = r') :
    ∃ u, s.Wrote [i] u ∧ exec (.byte d) s = .next { u with current := c, remain := r' } := by
  subst hr hi hc hr'
  obtain ⟨u, hw, -, hu⟩ := consumeByte_one d room h1
  exact ⟨u, hw, (execByte_busy d h hb).trans (congrArg _ hu)⟩

/-- BYTE in a phase of two symbols, with room for both. -/
theorem exec_byte_two (h : s.Admitted) (hb : s.call = .busy) (room : s.wptr + 1 < s.cap) {r r' : BitVec 3}
    {c : BitVec 5} {d : Byte} {i j : SymbolIndex} (hr : s.remain = r) (h2 : second r = true)
    (hi : idx1 r s.current d = i) (hj : idx2 r d = j) (hc : nextCurrent r d = c) (hr' : nextRemain r = r') :
    ∃ u, s.Wrote [i, j] u ∧ exec (.byte d) s = .next { u with current := c, remain := r' } := by
  subst hr hi hj hc hr'
  obtain ⟨u, hw, -, hu⟩ := consumeByte_two d room h2
  exact ⟨u, hw, (execByte_busy d h hb).trans (congrArg _ hu)⟩

end

/-- Settles O19: the two rows of R86's table with one symbol. -/
theorem byteWritesOneSymbol : Obligations.ByteWritesOneSymbol := by
  intro s d h hb room
  refine ⟨fun hr => ?_, fun hr => ?_⟩
  · exact exec_byte_one h hb room hr rfl (idx1_five d (h.current_lt hr)) (nextCurrent_eq_one d rfl (by decide)) rfl
  · exact exec_byte_one h hb room hr rfl (idx1_eq_append (n := 4) (m := 1) d rfl rfl (h.current_lt hr))
      (nextCurrent_eq_one d rfl (by decide)) rfl

/-- Settles O20: the three rows of R86's table with two symbols. -/
theorem byteWritesTwoSymbols : Obligations.ByteWritesTwoSymbols := by
  intro s d h hb room
  refine ⟨fun hr => ?_, fun hr => ?_, fun hr => ?_⟩
  · exact exec_byte_two h hb room hr rfl (idx1_eq_append (n := 2) (m := 3) d rfl rfl (h.current_lt hr))
      (idx2_eq_extractLsb' _ d) (nextCurrent_eq_two d rfl) rfl
  · exact exec_byte_two h hb room hr rfl (idx1_eq_append (n := 1) (m := 4) d rfl rfl (h.current_lt hr))
      (idx2_eq_extractLsb' _ d) (nextCurrent_eq_two d rfl) rfl
  · exact exec_byte_two h hb room hr rfl (idx1_eq_append (n := 3) (m := 2) d rfl rfl (h.current_lt hr))
      (idx2_eq_extractLsb' _ d) (nextCurrent_three d) rfl

/-- Settles O21. -/
theorem byteFirstWriteRaises : Obligations.ByteFirstWriteRaises := by
  intro s d h hb hfull
  exact (execByte_busy d h hb).trans (congrArg _ (consumeByte_full d hfull))

/-- Settles O24. -/
theorem endWritesTail : Obligations.EndWritesTail := by
  intro s h hb hr room
  obtain ⟨u, hw, -, hu⟩ := flushTail_room hr room
  exact ⟨u, hw, (execEnd_busy h hb).trans (congrArg _ hu)⟩

/-- Settles O25. -/
theorem endTailRaises : Obligations.EndTailRaises := by
  intro s h hb hr hfull
  exact (execEnd_busy h hb).trans (congrArg _ (flushTail_full hr hfull))

end Sys2Proof.Machine

/-! PROOFS. The commands where they write no OBUF cell (41_commands.md R100 to R103): NOP, START, BYTE and END outside an
open call, and END with no carry pending. -/

namespace Sys2Proof.Machine

/-- Settles O14. In an admitted state the guard lets NOP through, and NOP answers the state it was given. -/
theorem nopChangesNothing : Obligations.NopChangesNothing := by
  intro s h
  exact onAdmitted_of h (.next s)

/-- Settles O15. START answers `openCall s`, whose fields are those of the statement by definition. -/
theorem startOpensCall : Obligations.StartOpensCall := by
  intro s h hb
  exact execStart_of h hb

/-- Settles O18. -/
theorem byteAndEndIgnoredOutsideCall : Obligations.ByteAndEndIgnoredOutsideCall := by
  intro s d h hb
  exact ⟨execByte_ignored d h hb, execEnd_ignored h hb⟩

/-- Settles O23. With `remain` 5 no carry is pending, so END does no more than close the call. -/
theorem endWithoutTail : Obligations.EndWithoutTail := by
  intro s h hb hr
  exact (execEnd_busy h hb).trans (congrArg _ (flushTail_none hr))

end Sys2Proof.Machine

/-! PROOFS. The contract of the whole call (42_encode_contract.md R130 to R141): a call that runs out of room stops at the
command whose symbol does not fit, keeps the symbols that did and ignores what follows (`State.FailedCall`); with the calls
that have room (`run_openCall`, `run_call_done`) these are all calls. -/

namespace Sys2Proof.Machine

/-! ### The length and the stream -/

/-- Settles O44. -/
theorem lengthFormula : Obligations.LengthFormula := by
  intro n
  unfold requiredLength
  omega

theorem streamBit_of_length_le {bs : List Byte} {p : Nat} (h : 8 * bs.length ≤ p) : streamBit bs p = false := by
  have hp : bs.length ≤ p / 8 := by omega
  simp only [streamBit, List.getElem?_eq_none hp]

theorem streamBit_getElem {bs : List Byte} {i b : Nat} (h : i < bs.length) (hb : b < 8) :
    streamBit bs (8 * i + b) = bs[i].getLsbD b := by
  have hdiv : (8 * i + b) / 8 = i := by omega
  have hmod : (8 * i + b) % 8 = b := by omega
  simp only [streamBit, hdiv, hmod, List.getElem?_eq_getElem h]

/-- Settles O45. -/
theorem symbolBitsAreStreamBits : Obligations.SymbolBitsAreStreamBits := by
  intro bs k
  refine ⟨symbolIndex_lt bs k, fun j hj => ?_, fun _ => streamBit_of_length_le, fun _ _ => streamBit_getElem⟩
  rw [symbolIndex_testBit, decide_eq_true hj, Bool.true_and]

theorem phaseRemain_eq_five_iff (n : Nat) : phaseRemain n = 5 ↔ n % 5 = 0 := by
  have hr := phaseRemain_spec n
  omega

/-! ### The alphabet on the write port -/

/-- R81: a symbol code is a letter or one of the digits 2 to 7. -/
theorem alphabet_mem_range (i : SymbolIndex) : (0x41 ≤ (alphabet i).toNat ∧ (alphabet i).toNat ≤ 0x5A) ∨
    (0x32 ≤ (alphabet i).toNat ∧ (alphabet i).toNat ≤ 0x37) := by
  have hi : i.toNat < 32 := i.isLt
  rw [alphabet_toNat]
  split_ifs <;> omega

/-- Settles O28. The writes of a command are the cells of a run of symbols. -/
theorem writtenBytesAreSymbols : Obligations.WrittenBytesAreSymbols := by
  intro i s t ws hx hws c hc
  obtain ⟨is, u, hw, -, hport, -⟩ := exec_writes hx
  have hcells : ws = symbolCells s.wptr is := List.append_cancel_left (hws.symm.trans (hport.trans hw.obufPort))
  obtain ⟨j, hj⟩ := symbolCells_data (hcells ▸ hc)
  rw [hj]
  exact alphabet_mem_range j

/-! ### The call that has run out of room -/

/-- A call of capacity `cap`, opened over the memory `m`, has failed within the commands of `bs`: the buffer is full of the
first `cap` symbols, all of them whole symbols of `bs`, and the cells beyond it are as they were. -/
structure State.FailedCall (cap : Nat) (m : Memory) (bs : List Byte) (s : State) : Prop where
  call : s.call = .error
  olen : s.olen = true
  wptr : s.wptr = cap
  carry : s.carryLegal = true
  whole : 5 * cap ≤ 8 * bs.length
  cells : ∀ k, k < cap → s.obuf.read k = some (symbolCode bs k)
  frame : ∀ a, cap ≤ a → s.obuf.read a = m.read a

section
variable {s : State} {cap : Nat} {m : Memory} {bs : List Byte}

theorem State.FailedCall.ne_busy (h : s.FailedCall cap m bs) : s.call ≠ .busy := by
  rw [h.call]
  decide

theorem State.FailedCall.admitted (h : s.FailedCall cap m bs) : s.Admitted :=
  ⟨h.carry, (State.capacityTrue_iff s).mpr fun hb => absurd hb h.ne_busy⟩

theorem State.FailedCall.withPorts (h : s.FailedCall cap m bs) (is : List HostInput) (ws : List Host.Cell) (c : Nat) :
    { s with inputs := is, obufPort := ws, capIn := c }.FailedCall cap m bs :=
  ⟨h.call, h.olen, h.wptr, h.carry, h.whole, h.cells, h.frame⟩

/-- The bytes that follow the failure do not change the symbols before it. -/
theorem State.FailedCall.append (h : s.FailedCall cap m bs) (d : Byte) : s.FailedCall cap m (bs ++ [d]) where
  call := h.call
  olen := h.olen
  wptr := h.wptr
  carry := h.carry
  whole := by
    have := h.whole
    rw [List.length_append, List.length_singleton]
    omega
  cells k hk := by
    have := h.whole
    rw [h.cells k hk, symbolCode_append d (by omega)]
  frame := h.frame

/-- R150, R152: a command of an open call that fills the buffer with stream symbols and then raises. -/
theorem State.InCall.raise_failed (h : s.InCall cap m bs) {bs' : List Byte} {n : Nat} {u : State}
    (hw : s.Wrote (streamSymbols bs' s.wptr n) u) (hfull : s.wptr + n = cap)
    (hold : ∀ k, k < s.wptr → symbolCode bs' k = symbolCode bs k) (whole : 5 * cap ≤ 8 * bs'.length) :
    (raiseInvalidOutputLength u).FailedCall cap m bs' := by
  obtain ⟨hcells, hframe⟩ := h.read_wrote hw hold
  rw [hfull] at hcells hframe
  exact {
    call := rfl
    olen := rfl
    wptr := by rw [raiseInvalidOutputLength_wptr, hw.wptr, streamSymbols_length, hfull]
    carry := by
      rw [State.carryLegal_iff, raiseInvalidOutputLength_remain, raiseInvalidOutputLength_current, hw.remain, hw.current]
      exact (State.carryLegal_iff s).mp h.admitted.1
    whole := whole
    cells := hcells
    frame := hframe }

/-- R134: a BYTE whose symbols do not all fit fails the call, with no symbol written or the first of two. -/
theorem State.InCall.consumeByte_failed (h : s.InCall cap m bs) (d : Byte) (fits : 8 * bs.length / 5 ≤ cap)
    (full : cap < 8 * (bs.length + 1) / 5) :
    (Machine.consumeByte d s).FailedCall cap m (bs ++ [d]) ∧ (Machine.consumeByte d s).inputs = s.inputs := by
  have hcount := symbolCount_succ bs.length
  have hw := h.wptr
  have hc := h.cap_eq
  have hold : ∀ k, k < s.wptr → symbolCode (bs ++ [d]) k = symbolCode bs k := fun k hk =>
    symbolCode_append d (by omega)
  have whole : 5 * cap ≤ 8 * (bs ++ [d]).length := by
    rw [List.length_append, List.length_singleton]
    omega
  rcases Nat.eq_or_lt_of_le fits with heq | hlt
  · rw [consumeByte_full d (by omega)]
    exact ⟨h.raise_failed (n := 0) (.nil s) (by omega) hold whole, rfl⟩
  · have h2 : phaseRemain bs.length ≤ 3 := by
      by_contra h3
      rw [if_neg h3] at hcount
      omega
    rw [if_pos h2] at hcount
    obtain ⟨u, hu, -, hx⟩ := consumeByte_two_full d (s := s) (by omega) ((second_iff _).mpr (h.remain ▸ h2))
    rw [idx1_stream d h.remain h.current, ← hw] at hu
    rw [hx]
    exact ⟨h.raise_failed (n := 1) hu (by omega) hold whole, hu.inputs⟩

/-- R134: END with a partial symbol and no cell for it fails the call. -/
theorem State.InCall.flushTail_failed (h : s.InCall cap m bs) (fits : 8 * bs.length / 5 ≤ cap)
    (full : cap < requiredLength bs.length) : (flushTail s).FailedCall cap m bs ∧ (flushTail s).inputs = s.inputs := by
  have hlen := requiredLength_eq bs.length
  have hw := h.wptr
  have hc := h.cap_eq
  have h5 : phaseRemain bs.length ≠ 5 := fun h5 => by
    rw [if_pos h5] at hlen
    omega
  have hr : s.remain ≠ 5#3 := fun hr => h5 (by rw [← h.remain, hr]; rfl)
  rw [if_neg h5] at hlen
  rw [flushTail_full hr (by omega)]
  exact ⟨h.raise_failed (n := 0) (.nil s) (by omega) (fun _ _ => rfl) (by omega), rfl⟩

/-! ### The steps of a failing call -/

theorem State.InCall.step_byte_failed (h : s.InCall cap m bs) {idle : Nat} {d : Byte} {rest : List HostInput}
    (hi : s.inputs = byteInput idle d :: rest) (fits : 8 * bs.length / 5 ≤ cap) (full : cap < 8 * (bs.length + 1) / 5) :
    ∃ t, step s = .next t ∧ t.inputs = rest ∧ t.FailedCall cap m (bs ++ [d]) := by
  rw [step_command hi, decode_byteWord]
  have h' := h.withPorts rest [] idle
  obtain ⟨hfailed, hin⟩ := h'.consumeByte_failed d fits full
  exact ⟨_, execByte_busy d h'.admitted h'.call, hin, hfailed⟩

theorem State.InCall.step_end_failed (h : s.InCall cap m bs) {idle : Nat} {rest : List HostInput}
    (hi : s.inputs = .command 0x300#10 idle :: rest) (fits : 8 * bs.length / 5 ≤ cap)
    (full : cap < requiredLength bs.length) : ∃ t, step s = .next t ∧ t.inputs = rest ∧ t.FailedCall cap m bs := by
  rw [step_command hi, decode_end_word]
  have h' := h.withPorts rest [] idle
  obtain ⟨hfailed, hin⟩ := h'.flushTail_failed fits full
  exact ⟨_, execEnd_busy h'.admitted h'.call, hin, hfailed⟩

/-- R151: a BYTE after the failure is ignored. -/
theorem State.FailedCall.step_byte (h : s.FailedCall cap m bs) {idle : Nat} {d : Byte} {rest : List HostInput}
    (hi : s.inputs = byteInput idle d :: rest) :
    ∃ t, step s = .next t ∧ t.inputs = rest ∧ t.FailedCall cap m (bs ++ [d]) := by
  rw [step_command hi, decode_byteWord]
  have h' := h.withPorts rest [] idle
  exact ⟨_, execByte_ignored d h'.admitted h'.ne_busy, rfl, h'.append d⟩

/-- R151: an END after the failure is ignored. -/
theorem State.FailedCall.step_end (h : s.FailedCall cap m bs) {idle : Nat} {rest : List HostInput}
    (hi : s.inputs = .command 0x300#10 idle :: rest) : ∃ t, step s = .next t ∧ t.inputs = rest ∧ t.FailedCall cap m bs := by
  rw [step_command hi, decode_end_word]
  have h' := h.withPorts rest [] idle
  exact ⟨_, execEnd_ignored h'.admitted h'.ne_busy, rfl, h'⟩

/-! ### START and END of an empty call -/

/-- R101: START writes no cell. -/
theorem step_start_obuf {t : State} {rest : List HostInput} (hi : s.inputs = .command 0x100#10 cap :: rest)
    (hs : step s = .next t) : t.obuf = s.obuf := by
  rw [step_command hi, decode_start_word] at hs
  obtain ⟨-, -, rfl⟩ := execStart_next hs
  rfl

/-- R139: END with no byte before it has no carry to flush, so it needs no room and writes no cell. -/
theorem State.InCall.step_end_empty (h : s.InCall cap m []) {idle : Nat} {rest : List HostInput}
    (hi : s.inputs = .command 0x300#10 idle :: rest) :
    ∃ t, step s = .next t ∧ t.call = .done ∧ t.olen = false ∧ t.wptr = 0 ∧ t.obuf = s.obuf := by
  have h' := h.withPorts rest [] idle
  have hx := flushTail_none (BitVec.eq_of_toNat_eq h'.remain)
  rw [step_command hi, decode_end_word]
  exact ⟨_, (execEnd_busy h'.admitted h'.call).trans (congrArg _ hx), rfl, h.olen, h.wptr, rfl⟩

/-! ### Runs of a failing call -/

theorem openCallInputs_append (idle cap : Nat) (bs ds : List Byte) :
    openCallInputs idle cap (bs ++ ds) = openCallInputs idle cap bs ++ ds.map (byteInput idle) := by
  rw [openCallInputs_eq, openCallInputs_eq, List.map_append]
  rfl

theorem run_snoc {t u : State} {k : Nat} (h : Host.Core.run core k s = .next t) (ht : step t = .next u) :
    Host.Core.run core (k + 1) s = .next u := by
  rw [run_add k 1 h, run_succ 0 ht, run_zero]

/-- R134: START and the BYTE commands of a call whose whole symbols do not fit. -/
theorem run_openCall_failed {idle : Nat} (hadm : s.Admitted) (hb : s.bufferHolds cap = true) {rest : List HostInput}
    (hi : s.inputs = openCallInputs idle cap bs ++ rest) (full : cap < 8 * bs.length / 5) :
    ∃ t, Host.Core.run core (bs.length + 1) s = .next t ∧ t.inputs = rest ∧ t.FailedCall cap s.obuf bs := by
  induction bs using List.reverseRecOn generalizing rest with
  | nil => exact absurd full (Nat.not_lt_zero cap)
  | append_singleton bs d ih =>
    rw [openCallInputs_append, List.append_assoc] at hi
    rw [List.length_append, List.length_singleton] at full ⊢
    rcases Nat.lt_or_ge cap (8 * bs.length / 5) with hlt | fits
    · obtain ⟨u, hu, hui, hfailed⟩ := ih hi hlt
      obtain ⟨t, ht, hend⟩ := hfailed.step_byte hui
      exact ⟨t, run_snoc hu ht, hend⟩
    · obtain ⟨u, hu, hui, hcall⟩ := run_openCall hadm hb hi fits
      obtain ⟨t, ht, hend⟩ := hcall.step_byte_failed hui fits full
      exact ⟨t, run_snoc hu ht, hend⟩

/-- R130: a whole call without room for all its symbols. -/
theorem run_call_failed {idle : Nat} {rest : List HostInput} (hadm : s.Admitted) (hb : s.bufferHolds cap = true)
    (hi : s.inputs = callInputs idle cap bs ++ rest) (full : cap < requiredLength bs.length) :
    ∃ t, Host.Core.run core (bs.length + 2) s = .next t ∧ t.inputs = rest ∧ t.FailedCall cap s.obuf bs := by
  rw [callInputs_eq, List.append_assoc] at hi
  rcases Nat.lt_or_ge cap (8 * bs.length / 5) with hlt | fits
  · obtain ⟨u, hu, hui, hfailed⟩ := run_openCall_failed hadm hb hi hlt
    obtain ⟨t, ht, hend⟩ := hfailed.step_end hui
    exact ⟨t, run_snoc hu ht, hend⟩
  · obtain ⟨u, hu, hui, hcall⟩ := run_openCall hadm hb hi fits
    obtain ⟨t, ht, hend⟩ := hcall.step_end_failed hui fits full
    exact ⟨t, run_snoc hu ht, hend⟩

/-- R134: the call is open before the BYTE whose symbols do not fit, and has failed after it. -/
theorem run_until_byte_fails {idle : Nat} {d : Byte} {ds : List Byte} {rest : List HostInput} (hadm : s.Admitted)
    (hb : s.bufferHolds cap = true) (hi : s.inputs = callInputs idle cap (bs ++ d :: ds) ++ rest)
    (fits : 8 * bs.length / 5 ≤ cap) (full : cap < 8 * (bs.length + 1) / 5) :
    ∃ t u, Host.Core.run core (bs.length + 1) s = .next t ∧ t.InCall cap s.obuf bs ∧
      Host.Core.run core (bs.length + 2) s = .next u ∧ u.FailedCall cap s.obuf (bs ++ [d]) := by
  rw [callInputs_eq, openCallInputs_append, List.append_assoc, List.append_assoc] at hi
  obtain ⟨t, ht, hti, hcall⟩ := run_openCall hadm hb hi fits
  obtain ⟨u, hu, -, hfailed⟩ := hcall.step_byte_failed hti fits full
  exact ⟨t, u, ht, hcall, run_snoc ht hu, hfailed⟩

end

/-! ### The statements of the contract -/

/-- Settles O43. -/
theorem encodeContract : Obligations.EncodeContract := by
  intro s idle cap bs rest hadm hb hi
  rcases Nat.lt_or_ge cap (requiredLength bs.length) with full | room
  · obtain ⟨t, ht, hti, hfailed⟩ := run_call_failed hadm hb hi full
    exact ⟨t, ht, hti, fun room => absurd full (Nat.not_lt.mpr room), fun _ =>
      ⟨hfailed.call, hfailed.olen, hfailed.wptr, hfailed.cells, hfailed.frame⟩⟩
  · obtain ⟨t, ht, hti, hdone⟩ := run_call_done hadm hb hi room
    exact ⟨t, ht, hti, fun _ => hdone, fun full => absurd full (Nat.not_lt.mpr room)⟩

/-- Settles O46. The run of the contract is the only one, and it ends in DONE or in ERROR. -/
theorem callSucceedsIffCapSuffices : Obligations.CallSucceedsIffCapSuffices := by
  intro s t idle cap bs rest hadm hb hi hrun
  obtain ⟨u, hu, -, hroom, hfull⟩ := encodeContract s idle cap bs rest hadm hb hi
  obtain rfl : u = t := Host.Outcome.next.inj (hu.symm.trans hrun)
  refine ⟨fun hdone => Nat.not_lt.mp fun full => ?_, fun room => (hroom room).1⟩
  exact absurd (hdone.symm.trans (hfull full).1) (by decide)

/-- Settles O50. -/
theorem phaseLaw : Obligations.PhaseLaw := by
  intro s idle cap bs rest hadm hb hi room
  obtain ⟨t, ht, hti, h⟩ := run_openCall hadm hb hi room
  refine ⟨t, ht, hti, h.call, h.olen, h.remain, h.current, h.wptr, ?_⟩
  rw [← phaseRemain_eq_five_iff, ← h.remain, BitVec.toNat_eq]
  rfl

/-- Settles O48. -/
theorem failurePosition : Obligations.FailurePosition := by
  intro s idle cap bs rest hadm hb hi
  refine ⟨fun j h1 hj fits full => ?_, fun hcap htail => ?_⟩
  · obtain ⟨n, rfl⟩ : ∃ n, j = n + 1 := ⟨j - 1, by omega⟩
    have hsplit : bs = bs.take n ++ bs[n] :: bs.drop (n + 1) := by
      rw [← List.drop_eq_getElem_cons, List.take_append_drop]
    have hlen : (bs.take n).length = n := List.length_take_of_le (Nat.le_of_succ_le hj)
    rw [hsplit] at hi
    obtain ⟨t, u, ht, hcall, hu, hfailed⟩ := run_until_byte_fails hadm hb hi (hlen.symm ▸ fits) (hlen.symm ▸ full)
    rw [hlen] at ht hu
    exact ⟨t, u, ht, hcall.call, hu, hfailed.call, hfailed.wptr⟩
  · rw [callInputs_eq, List.append_assoc] at hi
    obtain ⟨t, ht, hti, hcall⟩ := run_openCall hadm hb hi hcap.ge
    obtain ⟨u, hu, -, hfailed⟩ := hcall.step_end_failed hti hcap.ge (by unfold requiredLength; omega)
    exact ⟨t, u, ht, hcall.call, run_snoc ht hu, hfailed.call, hfailed.wptr⟩

/-- Settles O49. START opens a call with no carry, and END closes it: neither command writes. -/
theorem emptyInputSucceeds : Obligations.EmptyInputSucceeds := by
  intro s idle cap rest hadm hb hi
  rw [callInputs_eq, openCallInputs_eq] at hi
  obtain ⟨u, hu, hui, hcall⟩ := step_start_inCall hadm hb hi
  obtain ⟨t, ht, hdone, holen, hcount, hobuf⟩ := hcall.step_end_empty hui
  exact ⟨t, run_snoc (run_snoc (run_zero s) hu) ht, hdone, holen, hcount, hobuf.trans (step_start_obuf hi hu)⟩

end Sys2Proof.Machine

/-! PROOFS. The exception and the idle block (60_exceptions.md R150, R154, R158): the error is what BYTE and END leave when
the buffer is full, only START and reset lead out of it, and a step with no input holds the registers. -/

namespace Sys2Proof.Machine

section
variable {i : Instr} {s t : State}

/-- R150: STATUS after the error. -/
@[simp] theorem raiseInvalidOutputLength_status (s : State) : (raiseInvalidOutputLength s).status = 0x07#8 := by
  rw [State.status, raiseInvalidOutputLength_olen, raiseInvalidOutputLength_call]
  rfl

/-- R150: a command that takes a state of the invariant into ERROR is a BYTE or END of an open call that has written
symbols up to `cap` and raised. -/
theorem exec_raises (h : s.Inv) (hs : s.call ≠ .error) (hx : exec i s = .next t) (ht : t.call = .error) :
    s.call = .busy ∧ (i = .endCall ∨ ∃ d, i = .byte d) ∧
      ∃ is u, s.Wrote is u ∧ s.wptr + is.length = s.cap ∧ t = raiseInvalidOutputLength u := by
  rcases exec_cases hx with ⟨-, rfl⟩ | ⟨-, is, u, hw, -, -, room, hend⟩
  · cases ht
  · rcases hend with ⟨rfl, -⟩ | ⟨-, d, -, rfl⟩ | ⟨-, -, rfl⟩ | ⟨hb, hi, hfull, rfl⟩
    · exact absurd (hw.call.symm.trans ht) hs
    · exact absurd (hw.call.symm.trans ht) hs
    · cases ht
    · have hle : s.wptr + is.length ≤ s.cap := room.elim (fun e => by simpa [e] using h.wptr_le_cap) id
      exact ⟨hb, hi, is, u, hw, le_antisymm hle hfull, rfl⟩

end

/-- Settles O30. The failing write is the one at `wptr = cap`, so every cell from COUNT on lies beyond the symbols
written. -/
theorem errorRecordsFailure : Obligations.ErrorRecordsFailure := by
  intro i s t h hs hx ht
  obtain ⟨hb, hi, is, u, hw, hfull, rfl⟩ := exec_raises h hs hx ht
  have hcount : u.wptr = s.cap := hw.wptr.trans hfull
  refine ⟨hb, hi, rfl, rfl, raiseInvalidOutputLength_status u, hcount.trans hw.cap.symm, hw.cap, hw.remain, hw.current, fun a ha => ?_⟩
  have hge : s.cap ≤ a := hcount.symm.trans_le ha
  exact hw.read_other (.inr (hfull.trans_le hge))

/-- Settles O31. Of the five ways a step writes STATE and OLEN, two need an open call; of the others the first keeps both,
and START and reset clear OLEN. -/
theorem errorLeftOnlyByStartOrReset : Obligations.ErrorLeftOnlyByStartOrReset := by
  intro s t h hs hx
  have hnb : s.call ≠ .busy := by simp [hs]
  rcases step_call_olen_cases hx with ⟨hc, ho⟩ | ⟨-, ho, w, c, rest, hi, hd⟩ | ⟨-, -, hb, -⟩ | ⟨-, -, hb⟩ |
    ⟨-, ho, rest, hi⟩
  · have hkeep : t.call = .error := hc.trans hs
    exact ⟨fun _ => ⟨hkeep, ho.trans (h.error_iff_olen.mp hs)⟩, fun hne => absurd hkeep hne⟩
  · have hstart : ¬ s.NoStartOrReset := fun hn => hn.decode_ne_start hi hd
    exact ⟨fun hn => absurd hn hstart, fun _ => ⟨hstart, ho⟩⟩
  · exact absurd hb hnb
  · exact absurd hb hnb
  · have hreset : ¬ s.NoStartOrReset := fun hn => hn.not_reset hi
    exact ⟨fun hn => absurd hn hreset, fun _ => ⟨hreset, ho⟩⟩

/-- Settles O7. -/
theorem idleStepHoldsRegisters : Obligations.IdleStepHoldsRegisters := fun _ => step_idle

end Sys2Proof.Machine

/-! PROOFS. Reset, the host's inputs and the buffer's length (70_reset_and_hazards.md R170 to R176; 93 I6, I8): reset sets
every register, a host write touches one cell only, and a capacity beyond the stated buffer is refused. -/

namespace Sys2Proof.Machine

section
variable {s : State} {n len : Nat}

/-! ### Reset -/

/-- R170: STATUS after reset. -/
@[simp] theorem resetRegisters_status (s : State) : (resetRegisters s).status = 0x00#8 := by
  rw [State.status, resetRegisters_olen, resetRegisters_call]
  rfl

/-! ### A host write -/

section
variable {a : Nat} {v : Byte} {rest : List HostInput} (hi : s.inputs = .bufferWrite a v :: rest)
include hi

theorem step_bufferWrite_outside (h : ¬ (s.call = .busy ∧ a < s.cap)) :
    step s = .next { s with obuf := s.obuf.write a v, inputs := rest, obufPort := [] } :=
  (step_input hi).trans (congrArg Host.Outcome.next (hostWrite_outside a v h))

theorem step_bufferWrite_behind (hb : s.call = .busy) (hc : a < s.cap) (h : a < s.wptr) :
    step s = .next { s with
      obuf := s.obuf.write a (if Config.raceKeepsHost s.draws then v else s.symbols.getD a v)
      inputs := rest, obufPort := [], draws := s.draws + 1 } :=
  (step_input hi).trans (congrArg Host.Outcome.next (hostWrite_behind a v hb hc h))

theorem step_bufferWrite_ahead (hb : s.call = .busy) (hc : a < s.cap) (h : s.wptr ≤ a) :
    step s = .next { s with
      obuf := s.obuf.write a v, inputs := rest, obufPort := []
      raced := if a ∈ s.raced then s.raced else a :: s.raced } :=
  (step_input hi).trans (congrArg Host.Outcome.next (hostWrite_ahead a v hb hc h))

end

/-- 93 I6: the value that stands where the host races with a written symbol is the host's or that symbol. -/
theorem raceValue_cases (keepsHost : Bool) (symbols : List Byte) (a : Nat) (v : Byte) :
    (if keepsHost then v else symbols.getD a v) = v ∨
      ∃ x, symbols[a]? = some x ∧ (if keepsHost then v else symbols.getD a v) = x := by
  cases keepsHost with
  | true => exact .inl rfl
  | false =>
    cases hx : symbols[a]? with
    | none => exact .inl (by simp [hx])
    | some x => exact .inr ⟨x, rfl, by simp [hx]⟩

/-! ### A capacity beyond the stated buffer -/

theorem State.bufferHolds_eq_false (hl : s.obufLen = some len) (h : len < n) : s.bufferHolds n = false := by
  rw [State.bufferHolds, hl]
  exact decide_eq_false (Nat.not_le.mpr h)

theorem State.capacityTrue_eq_false (hb : s.call = .busy) (hl : s.obufLen = some len) (h : len < s.cap) :
    s.capacityTrue = false :=
  decide_eq_false fun ht => by simpa [State.bufferHolds_eq_false hl h] using ht hb

/-- R173, 93 I8: the guard of every command refuses a capacity beyond the buffer. -/
theorem onAdmitted_beyondBuffer (hc : s.carryLegal = true) (ht : s.capacityTrue = false)
    (k : Host.Outcome State Fault Refusal) : onAdmitted s k = .refused .capacityBeyondBuffer := by
  simp [onAdmitted, hc, ht]

theorem exec_beyondBuffer (hc : s.carryLegal = true) (ht : s.capacityTrue = false) (i : Instr) :
    exec i s = .refused .capacityBeyondBuffer := by
  cases i with
  | nop => exact onAdmitted_beyondBuffer hc ht _
  | start => exact onAdmitted_beyondBuffer hc ht _
  | byte d => exact onAdmitted_beyondBuffer hc ht _
  | endCall => exact onAdmitted_beyondBuffer hc ht _

/-- R173: START does not open a call whose capacity the buffer does not hold. -/
theorem execStart_beyondBuffer (h : s.Admitted) (hb : s.bufferHolds s.capIn = false) :
    execStart s = .refused .capacityBeyondBuffer := by
  simp [execStart, onAdmitted_of h, hb]

/-! ### The host provides a buffer -/

theorem lendBuffer_taken (h : ¬ (s.call = .busy ∧ n < s.cap)) : lendBuffer n s = .next { s with obufLen := some n } :=
  if_neg h

theorem lendBuffer_short (hb : s.call = .busy) (h : n < s.cap) : lendBuffer n s = .refused .capacityBeyondBuffer :=
  if_pos ⟨hb, h⟩

end

/-- Settles O52. Behind `wptr` the cell takes the value the race leaves, which is the host's or the symbol; from `wptr` on
it takes the host's. -/
theorem hostWriteRace : Obligations.HostWriteRace := by
  intro s a v rest hi hb hc
  by_cases hw : a < s.wptr
  · refine ⟨_, by rw [step_bufferWrite_behind hi hb hc hw, if_pos (Or.inl hw), if_pos hw], fun _ => ?_,
      fun hge => absurd hw (Nat.not_lt.mpr hge), fun b hne => Memory.read_write_of_ne _ _ hne⟩
    simpa only [Memory.read_write_self, Option.some.injEq] using raceValue_cases (Config.raceKeepsHost s.draws) s.symbols a v
  · exact ⟨_, by rw [step_bufferWrite_ahead hi hb hc (Nat.not_lt.mp hw), if_neg hw]; simp only [hw, false_or],
      fun hlt => absurd hlt hw, fun _ => Memory.read_write_self _ _ _, fun b hne => Memory.read_write_of_ne _ _ hne⟩

/-- Settles O6. The reset input answers `resetRegisters`, whose fields are those of the statement by definition. -/
theorem resetSetsEveryRegister : Obligations.ResetSetsEveryRegister :=
  ⟨⟨rfl, rfl, rfl, rfl, rfl, rfl, rfl, rfl⟩, fun _ _ hi => ⟨_, step_input hi, resetRegisters_status _, rfl, rfl⟩⟩

/-- Settles O16. START checks `cap_in` against the buffer, and the guard of every command checks an open call's `cap`. -/
theorem capacityBeyondBufferRefused : Obligations.CapacityBeyondBufferRefused :=
  ⟨fun _ _ h hl hlt => execStart_beyondBuffer h (State.bufferHolds_eq_false hl hlt),
    fun i _ _ hc hb hl hlt => exec_beyondBuffer hc (State.capacityTrue_eq_false hb hl hlt) i⟩

/-- Settles O51. -/
theorem hostWriteOutsideCall : Obligations.HostWriteOutsideCall := by
  intro s a v rest hi hout
  exact ⟨_, step_bufferWrite_outside hi hout, fun b => Memory.read_write s.obuf a b v⟩

/-- Settles O54 (`lendBuffer` is the model's own function). -/
theorem step_lendBuffer : Obligations.LendBuffer := by
  intro s n rest hi
  rw [step_input hi]
  exact ⟨fun h => lendBuffer_taken h, fun hb hlt => lendBuffer_short hb hlt⟩

end Sys2Proof.Machine
